-- ==== Sys2Proof/Word.lean ====
section
/-! DEFINITION. The widths of the block's values (R9, R10, R71). -/

namespace Sys2Proof

/-- One 8-bit unsigned value of a byte string (R10). -/
abbrev Byte := BitVec 8

/-- A register value: an unsigned 32-bit word, bit 0 the least significant (R9). -/
abbrev Word := BitVec 32

/-- A window offset: 12 bits, 0x000 to 0xFFF (R7, R71). -/
abbrev Offset := BitVec 12

end Sys2Proof
end

