-- ==== Sys2Proof/Syntax.lean ====
section
/-! DEFINITION. The block's instructions: one constructor per row of spec/opcode_table.json (R102). -/

namespace Sys2Proof

/-- A command. Only `CONFIGURE` has an operand in its word, the 3-bit MessageType code (R103, R104, R112, R113). -/
inductive Instr where
  /-- CMD.NOP (R215). -/
  | nop
  /-- CMD.CONFIGURE (R221); codes 100 to 111 are legal encodings that complete with `UnknownType` (R104). -/
  | configure (type : BitVec 3)
  /-- CMD.DECRYPT (R230). -/
  | decrypt
  /-- CMD.ENCRYPT (R240). -/
  | encrypt
  /-- CMD.RELEASE (R245). -/
  | release
  /-- CMD.SRESET (R250). -/
  | sreset
  deriving DecidableEq, Repr

end Sys2Proof
end

