-- ==== Sys2Proof/WellFormed.lean ====
section
/-! DEFINITION. What makes a command well formed (R105). A term of `Instr` is well formed by its type: its one operand,
`CONFIGURE`'s TYPE, is exactly the field's 3 bits and every code is a legal encoding (R104). What can be ill formed is the
command WORD a host writes, and `validWord` is the spec's own check of it, written apart from the decoder. -/

namespace Sys2Proof

/-- `valid(w)` (R105): bits [31:7] are 0, and OP is CONFIGURE with any TYPE, or one of the five other opcodes with TYPE 0. -/
def validWord (w : Word) : Bool :=
  decide (w.toNat / 2 ^ 7 = 0) &&
    (decide (w.toNat % 2 ^ 4 = 0x1) ||
      ([0x0, 0x2, 0x3, 0x4, 0xF].contains (w.toNat % 2 ^ 4) && decide (w.toNat / 2 ^ 4 % 2 ^ 3 = 0)))

end Sys2Proof
end

