-- ==== Sys2Proof/Decode.lean ====
section
/-! DEFINITION. The command decoder, total on all 2^32 words (R106), and the encoder (R101, R117, R118). -/

namespace Sys2Proof

/-- Why a word is `ILLEGAL` (R106): the three causes the spec names (R261 row 8). The block reports them alike. -/
inductive Illegal where
  /-- A bit of [31:7] is set (R108). -/
  | reservedBits
  /-- The opcode is one of 0x5 to 0xE (R107). -/
  | reservedOpcode
  /-- TYPE is not 000 for an opcode other than CONFIGURE (R103). -/
  | misplacedType
  deriving DecidableEq, Repr

/-- `OP`, bits [3:0] (R101). -/
def opField (w : Word) : BitVec 4 := w.extractLsb' 0 4

/-- `TYPE`, bits [6:4] (R101). -/
def typeField (w : Word) : BitVec 3 := w.extractLsb' 4 3

/-- `RSVD`, bits [31:7] (R101). -/
def rsvdField (w : Word) : BitVec 25 := w.extractLsb' 7 25

/-- An opcode without an operand: its TYPE field must be 000 (R103, R106). -/
def decodePlain (w : Word) (i : Instr) : Except Illegal Instr :=
  if typeField w = 0#3 then .ok i else .error .misplacedType

/-- `decode(w)` (R106). -/
def decode (w : Word) : Except Illegal Instr :=
  if rsvdField w ≠ 0#25 then .error .reservedBits
  else
    match (opField w).toNat with
    | 0x0 => decodePlain w .nop
    | 0x1 => .ok (.configure (typeField w))
    | 0x2 => decodePlain w .decrypt
    | 0x3 => decodePlain w .encrypt
    | 0x4 => decodePlain w .release
    | 0xF => decodePlain w .sreset
    | _ => .error .reservedOpcode

/-- The instruction a word stands for, if it is legal. -/
def decode? (w : Word) : Option Instr :=
  match decode w with
  | .ok i => some i
  | .error _ => none

/-- The `OP` code of a command (R102). -/
def opcode : Instr → BitVec 4
  | .nop => 0x0#4
  | .configure _ => 0x1#4
  | .decrypt => 0x2#4
  | .encrypt => 0x3#4
  | .release => 0x4#4
  | .sreset => 0xF#4

/-- The `TYPE` field of a command (R103, R104). -/
def typeCode : Instr → BitVec 3
  | .configure t => t
  | _ => 0#3

/-- A command word from its fields, RSVD zero (R101). -/
def commandWord (op : BitVec 4) (type : BitVec 3) : Word := 0#25 ++ type ++ op

/-- The one word of a command (R118). -/
def encode (i : Instr) : Word := commandWord (opcode i) (typeCode i)

/-- The exact word that is `SRESET` (R110). -/
def sresetWord : Word := 0x0000000F#32

/-- The instruction the decoder reads from an instruction of `nbits` table bits whose value is `w`. A command is one
32-bit word, so a value that needs more than 32 bits is no command. -/
def decodeTableWord (nbits w : Nat) : Option Instr :=
  if w % 2 ^ nbits < 2 ^ 32 then decode? (BitVec.ofNat 32 (w % 2 ^ nbits)) else none

end Sys2Proof
end

