-- ==== Sys2Proof/Config.lean ====
section
/-! DEFINITION. The block's parameters: the fixed ones of R7, and the open ones of R8 as constants with no body. -/

namespace Sys2Proof.Config

/-- `WINDOW_BYTES` (R7): the size of the register window. -/
def windowBytes : Nat := 4096

/-- `IV_LEN` (R7): the architectural IV length. -/
def ivLen : Nat := 16

/-- `TAG_LEN` (R7). -/
def tagLen : Nat := 4

/-- `HMAC_LEN` (R7). -/
def hmacLen : Nat := 20

/-- `MAX_PAYLOAD` (R7): no format may need more payload bytes than the pad has. -/
def maxPayload : Nat := 20

/-- `KEY_MAX` (R7): the longest key, the SHA-1 block size. -/
def keyMax : Nat := 64

/-- `IV_BUF_BYTES` (R7). -/
def ivBufBytes : Nat := 16

/-- `DATA_IN_BYTES` (R7). -/
def dataInBytes : Nat := 64

/-- `DATA_OUT_BYTES` (R7). -/
def dataOutBytes : Nat := 64

/-- `SCRATCH_BYTES` (R7). -/
def scratchBytes : Nat := 64

/-- The `ID` register's constant (R23): "HS1" and interface version 1. -/
def idWord : Word := 0x48533101#32

/-- `NUM_INSTANCES` (R8, open): how many independent blocks the platform places. -/
opaque numInstances : Nat

/-- The 4096-byte page of the host's address space at which instance `k` sits (R8, R71, open). -/
opaque basePage : Nat → Nat

/-- `BASE_ADDR` of instance `k` (R8, R71): a multiple of 4096, otherwise open. -/
def baseAddr (k : Nat) : Nat := windowBytes * basePage k

/-- `IRQ_LINE` of instance `k` (R8, open): the host interrupt input its `irq` drives. -/
opaque irqLine : Nat → Nat

/-- `BUS_ERROR_RESPONSE` (R8, D43, open): the report the platform gives its host for a refused access at an offset,
the second argument true for a write. What the report means is the platform's. -/
opaque busErrorResponse : Offset → Bool → Nat

/-- `LATENCY` (R8, open): a finite number of cycles from issue to completion. Its arguments are the ONLY quantities it
may depend on (R275): the opcode, `ACT_TYPE`, the `STATE` code, and the code of the state or length check that failed
(0 when none did). -/
opaque latency : BitVec 4 → BitVec 3 → BitVec 2 → BitVec 4 → Nat

/-- The value of a host program's name that no answered `RD` gave, by its `RD`'s number: the spec states none. A free value,
DESIGN CHOICE (log 13). -/
opaque unreadName : Nat → Word

/-- What a host declares as the length of a token, IV or plaintext of more than 255 bytes, which no `LEN` field can hold: the
spec states none. A free value, DESIGN CHOICE (log 14). -/
opaque overlongLength : Nat → BitVec 8

end Sys2Proof.Config
end

