-- ==== Sys2Proof/Machine/State.lean ====
section
/-! DEFINITION. The state of one block (R54), the inputs it takes, the reasons a step can stop, and the reset state (R55). -/

namespace Sys2Proof.Machine

/-- The lifecycle state `STATE` (R28). Code 11 is never produced and has no constructor (U7). -/
inductive Lifecycle where
  | unconfigured
  | keyed
  | released
  deriving DecidableEq, Repr

/-- The result codes of `ERR_CODE` (R261). Codes 9 to 15 are never produced and have no constructor (U8). -/
inductive ResultCode where
  | ok
  | unknownType
  | badMessageLength
  | badInitVectorLength
  | badPlainLength
  | signatureCheckFailed
  | notConfigured
  | badKeyLength
  | illegalCommand
  deriving DecidableEq, Repr

/-- The four message types (R104). -/
inductive MessageType where
  | advertisingID
  | appIdentifier
  | price
  | hyperlocal
  deriving DecidableEq, Repr

/-- One row of the Format Table: `(messageLen, payloadLen)` (R142). -/
structure Format where
  messageLen : Nat
  payloadLen : Nat
  deriving DecidableEq, Repr

/-- The five buffer windows a host can address (R22, R70). -/
inductive Buffer where
  | encKey
  | intKey
  | iv
  | dataIn
  | dataOut
  deriving DecidableEq, Repr

/-- What a mapped word offset reaches (R22): a register, or the buffer word whose first byte has index `k`. -/
inductive Target where
  | id
  | cmd
  | status
  | intStatus
  | intEnable
  | len
  | buf (b : Buffer) (k : Nat)
  deriving DecidableEq, Repr

/-- The direction of a host access (R72). -/
inductive Direction where
  | read
  | write
  deriving DecidableEq, Repr

/-- One host bus access (R180, R182): its window offset, its size in bytes, and for a write its 32-bit value. Only size 4 is
ever accepted (R72). -/
inductive Access where
  | read (off : Offset) (size : Nat)
  | write (off : Offset) (size : Nat) (v : Word)
  deriving DecidableEq, Repr

/-- One input to come: who moves next, and with what (R14, R300). -/
inductive Event where
  /-- The host performs one access. -/
  | bus (a : Access)
  /-- The engine gets its turn; nothing happens when `BUSY = 0` (R211). -/
  | engine
  /-- The hardware reset input is asserted and released (R300). -/
  | hardwareReset
  deriving DecidableEq, Repr

/-- What the bus last answered the host. -/
inductive Reply where
  /-- No access yet. -/
  | nothing
  /-- A read returned this word (R180). -/
  | data (v : Word)
  /-- A write was taken by the bus: stored, ignored (R184) or dropped (R186) alike. -/
  | written
  /-- The access was refused with a bus error, with its offset and direction (R72). -/
  | busError (off : Offset) (dir : Direction)
  deriving DecidableEq, Repr

/-- A byte array: the (index, byte) pairs of its nonzero bytes, indices rising. An unlisted byte reads 0, which is the
reset content of every buffer (R55). -/
abbrev Memory := List Host.Cell

/-- The complete state of one block (R54), and two fields of the model's own: `events` and `reply`. -/
structure State where
  /-- `STATE` (R28). -/
  lifecycle : Lifecycle
  /-- `BUSY` (R26). -/
  busy : Bool
  /-- `ACT_TYPE` (R45). -/
  actType : BitVec 3
  /-- `ACT_ENC_KEY` (R46). -/
  actEncKey : List Byte
  /-- `ACT_INT_KEY` (R46). -/
  actIntKey : List Byte
  /-- `ERR_CODE` (R30). -/
  errCode : ResultCode
  /-- `LAST_OP` (R31). -/
  lastOp : BitVec 4
  /-- `OUT_LEN` (R32). -/
  outLen : BitVec 8
  /-- `INT_STATUS[2:0]`: DONE, ERR, WERR (R34). -/
  intStatus : BitVec 3
  /-- `INT_ENABLE[2:0]` (R38). -/
  intEnable : BitVec 3
  /-- `LEN` (R39). -/
  len : Word
  /-- `ENC_KEY_STAGE[0..63]` (R40). -/
  encKeyStage : Memory
  /-- `INT_KEY_STAGE[0..63]` (R41). -/
  intKeyStage : Memory
  /-- `IV_BUF[0..15]` (R42). -/
  ivBuf : Memory
  /-- `DATA_IN[0..63]` (R43). -/
  dataIn : Memory
  /-- `DATA_OUT[0..63]` (R44). -/
  dataOut : Memory
  /-- `SCRATCH[0..63]` (R48). -/
  scratch : Memory
  /-- `PEND.OP` (R49). -/
  pendOp : BitVec 4
  /-- `PEND.TYPE` (R49). -/
  pendType : BitVec 3
  /-- The model's own: the inputs still to come, oldest first. DESIGN CHOICE (log 1). -/
  events : List Event
  /-- The model's own: the bus's last answer to the host. DESIGN CHOICE (log 2). -/
  reply : Reply
  deriving DecidableEq, Repr

/-- Why a step can stop the machine. -/
inductive Fault where
  /-- Raised by the engine's turn (Machine/Agents.lean) when `BUSY = 1` and `PEND` holds no command the engine runs. Issue
  never latches such a word (R210), so no reachable state raises it. Safe: the model stops where the spec says nothing. -/
  | pendHoldsNoCommand
  deriving DecidableEq, Repr

/-- Why a step can be refused. -/
inductive Refusal where
  /-- An instruction without a meaning in this model; raised by no arm of `exec`, since every row has its meaning. Safe. -/
  | notModelled (mnemonic : String)
  deriving DecidableEq, Repr

/-- The machine right after reset (R55): every field as the spec states it; the model's own two empty (log 1, log 2). -/
def State.reset : State :=
  { lifecycle := .unconfigured
    busy := false
    actType := 0#3
    actEncKey := []
    actIntKey := []
    errCode := .ok
    lastOp := 0#4
    outLen := 0#8
    intStatus := 0#3
    intEnable := 0#3
    len := 0#32
    encKeyStage := []
    intKeyStage := []
    ivBuf := []
    dataIn := []
    dataOut := []
    scratch := []
    pendOp := 0#4
    pendType := 0#3
    events := []
    reply := .nothing }

end Sys2Proof.Machine
end

