-- ==== Sys2Proof/Machine/Flags.lean ====
section
/-! DEFINITION. The status bits and codes: the STATUS word (R25, R181), the INT_STATUS bits (R34 to R37), irq (R50). -/

namespace Sys2Proof.Machine

/-- The 2-bit code of `STATE` (R28). -/
def Lifecycle.code : Lifecycle → BitVec 2
  | .unconfigured => 0b00#2
  | .keyed => 0b01#2
  | .released => 0b10#2

/-- The 4-bit result code (R261). -/
def ResultCode.code : ResultCode → BitVec 4
  | .ok => 0#4
  | .unknownType => 1#4
  | .badMessageLength => 2#4
  | .badInitVectorLength => 3#4
  | .badPlainLength => 4#4
  | .signatureCheckFailed => 5#4
  | .notConfigured => 6#4
  | .badKeyLength => 7#4
  | .illegalCommand => 8#4

/-- `KEYED` (R27): not storage, but `STATE = 01`. -/
def State.keyed (s : State) : Bool := decide (s.lifecycle = .keyed)

/-- `TypeField()` (R181, R29). -/
def State.shownType (s : State) : BitVec 3 := if s.lifecycle = .keyed then s.actType else 0#3

/-- One bit as a word. -/
def bitWord (b : Bool) : Word := if b then 1#32 else 0#32

/-- `StatusWord()` (R181). -/
def State.statusWord (s : State) : Word :=
  s.outLen.setWidth 32 <<< 16 ||| s.lastOp.setWidth 32 <<< 12 ||| s.errCode.code.setWidth 32 <<< 8 |||
    s.shownType.setWidth 32 <<< 4 ||| s.lifecycle.code.setWidth 32 <<< 2 ||| bitWord s.keyed <<< 1 ||| bitWord s.busy

/-- `INT_STATUS.DONE`, bit 0 (R35). -/
def doneBit : BitVec 3 := 0b001#3

/-- `INT_STATUS.ERR`, bit 1 (R36). -/
def errBit : BitVec 3 := 0b010#3

/-- `INT_STATUS.WERR`, bit 2 (R37). -/
def werrBit : BitVec 3 := 0b100#3

/-- The bits a completion or refusal with this result sets (R212, R213). -/
def resultBits (e : ResultCode) : BitVec 3 := if e = .ok then doneBit else doneBit ||| errBit

/-- The W1C rule (R34, R182): each bit written 1 is cleared, the others stay. -/
def clearBits (bits : BitVec 3) (v : Word) : BitVec 3 := bits &&& ~~~(v.extractLsb' 0 3)

/-- The `irq` wire (R50). -/
def State.irq (s : State) : Bool := decide (s.intStatus &&& s.intEnable ≠ 0#3)

end Sys2Proof.Machine
end

