-- ==== Sys2Proof/Machine/Memory.lean ====
section
/-! DEFINITION. Byte strings, the big-endian packing of words, and the operations on a byte array (R9, R10, R70). -/

namespace Sys2Proof.Machine

/-- `BEword(b0,b1,b2,b3)` (R180, R70): `b0` in bits [31:24]. -/
def beWord (b0 b1 b2 b3 : Byte) : Word := b0 ++ b1 ++ b2 ++ b3

/-- `BE32(w)` (R10). -/
def be32 (w : Word) : List Byte :=
  [w.extractLsb' 24 8, w.extractLsb' 16 8, w.extractLsb' 8 8, w.extractLsb' 0 8]

/-- `BE64(v)` (R10). -/
def be64 (v : BitVec 64) : List Byte := be32 (v.extractLsb' 32 32) ++ be32 (v.extractLsb' 0 32)

/-- `zeros(n)` (R10). -/
def zeros (n : Nat) : List Byte := List.replicate n 0#8

/-- `s[i:j]` (R10): half-open. -/
def slice (s : List Byte) (i j : Nat) : List Byte := (s.drop i).take (j - i)

/-- `BUF[k]` (R11): an unlisted byte reads 0, the reset content (R55). -/
def Memory.byte : Memory → Nat → Byte
  | [], _ => 0#8
  | (i, b) :: m, k => if i = k then b else Memory.byte m k

/-- The array without byte `k`'s entry. -/
def Memory.remove : Memory → Nat → Memory
  | [], _ => []
  | (i, b) :: m, k => if i = k then Memory.remove m k else (i, b) :: Memory.remove m k

/-- The entry put in its place, the indices rising. -/
def Memory.insert : Memory → Nat → Byte → Memory
  | [], k, v => [(k, v)]
  | (i, b) :: m, k, v => if k < i then (k, v) :: (i, b) :: m else (i, b) :: Memory.insert m k v

/-- `BUF[k] <- v` (R11), in canonical form: a byte that is 0 has no entry. -/
def Memory.setByte (m : Memory) (k : Nat) (v : Byte) : Memory :=
  if v = 0#8 then m.remove k else (m.remove k).insert k v

/-- `BUF[k .. k+len(bs)-1] <- bs`. -/
def Memory.setBytes : Memory → Nat → List Byte → Memory
  | m, _, [] => m
  | m, k, b :: bs => Memory.setBytes (m.setByte k b) (k + 1) bs

/-- `BUF[k : k+n]` as a byte string. -/
def Memory.bytes (m : Memory) : Nat → Nat → List Byte
  | _, 0 => []
  | k, n + 1 => m.byte k :: Memory.bytes m (k + 1) n

/-- `BUF <- bs`: the array that holds `bs` from index 0 and 0 beyond. -/
def Memory.ofBytes (bs : List Byte) : Memory := Memory.setBytes [] 0 bs

/-- The 32-bit word at bytes `k .. k+3`, big-endian (R70). -/
def Memory.wordAt (m : Memory) (k : Nat) : Word :=
  beWord (m.byte k) (m.byte (k + 1)) (m.byte (k + 2)) (m.byte (k + 3))

/-- `BUF[k .. k+3] <- BE32(v)` (R70). -/
def Memory.setWord (m : Memory) (k : Nat) (v : Word) : Memory := m.setBytes k (be32 v)

/-- Entries with indices from `lo`, strictly rising, below `size`, none 0. -/
def Memory.wfFrom (size : Nat) : Nat → Memory → Bool
  | _, [] => true
  | lo, (i, b) :: m => decide (lo ≤ i) && decide (i < size) && decide (b ≠ 0#8) && Memory.wfFrom size (i + 1) m

/-- The canonical form of an array of `size` bytes: equal contents are equal data. -/
def Memory.wf (size : Nat) (m : Memory) : Bool := Memory.wfFrom size 0 m

end Sys2Proof.Machine
end

