-- ==== Sys2Proof/Machine/Operands.lean ====
section
/-! DEFINITION. The operands of the commands, all implicit but TYPE (R112, R113): the fields of LEN (R39), the staged keys
(R46), the input strings (R43, R115), and the Format Table (R142). -/

namespace Sys2Proof.Machine

/-- `LEN.IN_LEN`, bits [7:0] (R39). -/
def State.inLen (s : State) : BitVec 8 := s.len.extractLsb' 0 8

/-- `LEN.IV_LEN`, bits [15:8] (R39). -/
def State.ivLen (s : State) : BitVec 8 := s.len.extractLsb' 8 8

/-- `LEN.ENC_KEY_LEN`, bits [23:16] (R39). -/
def State.encKeyLen (s : State) : BitVec 8 := s.len.extractLsb' 16 8

/-- `LEN.INT_KEY_LEN`, bits [31:24] (R39). -/
def State.intKeyLen (s : State) : BitVec 8 := s.len.extractLsb' 24 8

/-- `ENC_KEY_STAGE[0 : ENC_KEY_LEN]` (R46, R221). -/
def State.stagedEncKey (s : State) : List Byte := s.encKeyStage.bytes 0 s.encKeyLen.toNat

/-- `INT_KEY_STAGE[0 : INT_KEY_LEN]` (R46, R221). -/
def State.stagedIntKey (s : State) : List Byte := s.intKeyStage.bytes 0 s.intKeyLen.toNat

/-- `DATA_IN[0 : n]` (R43, R115). -/
def State.input (s : State) (n : Nat) : List Byte := s.dataIn.bytes 0 n

/-- `IV_BUF[0 : 16]` (R240). -/
def State.initVector (s : State) : List Byte := s.ivBuf.bytes 0 Config.ivLen

/-- The message type of a code; 100 to 111 name none (R104). -/
def messageType? (t : BitVec 3) : Option MessageType :=
  match t.toNat with
  | 0 => some .advertisingID
  | 1 => some .appIdentifier
  | 2 => some .price
  | 3 => some .hyperlocal
  | _ => none

/-- The lengths of a message type (R142). -/
def MessageType.format : MessageType → Format
  | .advertisingID => ⟨36, 16⟩
  | .appIdentifier => ⟨28, 8⟩
  | .price => ⟨28, 8⟩
  | .hyperlocal => ⟨32, 12⟩

/-- `FormatTable(t)` (R142); `none` is `raise UnknownType`. -/
def formatRow (t : BitVec 3) : Option Format := (messageType? t).map MessageType.format

end Sys2Proof.Machine
end

