-- ==== Sys2Proof/Machine/Ops.lean ====
section
/-! DEFINITION. The shared operations: completing, raising an error, refusing, issuing, resetting, acknowledging, and the
host's reads and writes of the register window (41_host_access.md; 42_commands.md section 1; 60_exceptions.md). -/

namespace Sys2Proof.Machine

/-! ### Results: completion, error entry, acknowledgement -/

/-- `Complete(e)` (R212). -/
def complete (e : ResultCode) (s : State) : State :=
  { s with errCode := e, busy := false, intStatus := s.intStatus ||| resultBits e }

/-- `raise X` inside a command (R12, R212, R276): the error entry. It saves nothing and jumps nowhere; the command's
remaining lines are skipped and the result is recorded. -/
def raise (e : ResultCode) (s : State) : State := complete e s

/-- The way back from an error (R277): the host's W1C write to INT_STATUS (R34), accepted at any time (R187). -/
def acknowledge (v : Word) (s : State) : State := { s with intStatus := clearBits s.intStatus v }

/-- `Refuse()` (R213), after `LAST_OP` has been set. -/
def refuse (s : State) : State :=
  { s with errCode := .illegalCommand, intStatus := s.intStatus ||| resultBits .illegalCommand }

/-- A valid command latched (R210): the rest of its work is the engine's. -/
def latch (v : Word) (s : State) : State :=
  { s with lastOp := opField v, pendOp := opField v, pendType := typeField v, busy := true }

/-- `Issue(v)` (R210). -/
def issue (v : Word) (s : State) : State :=
  match decode v with
  | .ok _ => latch v s
  | .error _ => refuse { s with lastOp := opField v }

/-- The reset state (R55) in the block; the inputs still to come and the bus's last answer, which are not the block's, stay. -/
def toReset (s : State) : State := { State.reset with events := s.events, reply := s.reply }

/-- `SoftReset()` (R250, R301). -/
def softReset (s : State) : State := toReset s

/-- The hardware reset input (R300). -/
def hardReset (s : State) : State := toReset s

/-- A host write dropped because `BUSY = 1` (R186, R37). -/
def dropWrite (s : State) : State := { s with intStatus := s.intStatus ||| werrBit }

/-! ### The register window -/

/-- The first offset of a buffer window (R22). -/
def Buffer.base : Buffer → Nat
  | .encKey => 0x100
  | .intKey => 0x140
  | .iv => 0x180
  | .dataIn => 0x1C0
  | .dataOut => 0x200

/-- The bytes of a buffer window (R22, R7). -/
def Buffer.size : Buffer → Nat
  | .encKey => Config.keyMax
  | .intKey => Config.keyMax
  | .iv => Config.ivBufBytes
  | .dataIn => Config.dataInBytes
  | .dataOut => Config.dataOutBytes

/-- A read of a write-only window returns 0 (R40, R41, R184). -/
def Buffer.writeOnly : Buffer → Bool
  | .encKey | .intKey => true
  | .iv | .dataIn | .dataOut => false

/-- A write to a read-only window is ignored (R44, R184). -/
def Buffer.readOnly : Buffer → Bool
  | .dataOut => true
  | .encKey | .intKey | .iv | .dataIn => false

/-- The byte array behind a window. -/
def State.buf (s : State) : Buffer → Memory
  | .encKey => s.encKeyStage
  | .intKey => s.intKeyStage
  | .iv => s.ivBuf
  | .dataIn => s.dataIn
  | .dataOut => s.dataOut

/-- The state with another byte array behind a window. -/
def State.setBuf (s : State) (b : Buffer) (m : Memory) : State :=
  match b with
  | .encKey => { s with encKeyStage := m }
  | .intKey => { s with intKeyStage := m }
  | .iv => { s with ivBuf := m }
  | .dataIn => { s with dataIn := m }
  | .dataOut => { s with dataOut := m }

/-- The target of an offset, or `none` where no 32-bit access is accepted: misaligned, or outside Mapped (R22, R72, R180). -/
def target? (off : Offset) : Option Target :=
  let o := off.toNat
  if o % 4 ≠ 0 then none
  else if o = 0x000 then some .id
  else if o = 0x004 then some .cmd
  else if o = 0x008 then some .status
  else if o = 0x00C then some .intStatus
  else if o = 0x010 then some .intEnable
  else if o = 0x014 then some .len
  else if o < 0x100 then none
  else if o < 0x140 then some (.buf .encKey (o - 0x100))
  else if o < 0x180 then some (.buf .intKey (o - 0x140))
  else if o < 0x190 then some (.buf .iv (o - 0x180))
  else if o < 0x1C0 then none
  else if o < 0x200 then some (.buf .dataIn (o - 0x1C0))
  else if o < 0x240 then some (.buf .dataOut (o - 0x200))
  else none

/-- The target an access of this size reaches; `none` is a bus error (R72, R73). -/
def accessTarget? (off : Offset) (size : Nat) : Option Target := if size = 4 then target? off else none

/-- The word `RegRead` returns for a mapped offset (R180). -/
def regRead (t : Target) (s : State) : Word :=
  match t with
  | .id => Config.idWord
  | .cmd => 0#32
  | .status => s.statusWord
  | .intStatus => s.intStatus.setWidth 32
  | .intEnable => s.intEnable.setWidth 32
  | .len => s.len
  | .buf b k => if b.writeOnly then 0#32 else (s.buf b).wordAt k

/-- What `RegWrite` does at a mapped offset (R182). -/
def regWrite (t : Target) (v : Word) (s : State) : State :=
  match t with
  | .id | .status => s
  | .intStatus => acknowledge v s
  | .intEnable => { s with intEnable := v.extractLsb' 0 3 }
  | .cmd => if v = sresetWord then softReset s else if s.busy then dropWrite s else issue v s
  | .len => if s.busy then dropWrite s else { s with len := v }
  | .buf b k =>
    if b.readOnly then s
    else if s.busy then dropWrite s
    else s.setBuf b ((s.buf b).setWord k v)

/-- One host access and the bus's answer: the word read, the write taken, or a bus error with no other effect (R72, R180,
R182). -/
def hostAccess (a : Access) (s : State) : State :=
  match a with
  | .read off size =>
    match accessTarget? off size with
    | some t => { s with reply := .data (regRead t s) }
    | none => { s with reply := .busError off .read }
  | .write off size v =>
    match accessTarget? off size with
    | some t => regWrite t v { s with reply := .written }
    | none => { s with reply := .busError off .write }

/-! ### Views by byte and by host address -/

/-- The byte of a window at a byte offset of the address space, where a buffer holds one (R74). -/
def State.windowByte (s : State) (o : Nat) : Option Byte :=
  if 0x100 ≤ o ∧ o < 0x140 then some (s.encKeyStage.byte (o - 0x100))
  else if 0x140 ≤ o ∧ o < 0x180 then some (s.intKeyStage.byte (o - 0x140))
  else if 0x180 ≤ o ∧ o < 0x190 then some (s.ivBuf.byte (o - 0x180))
  else if 0x1C0 ≤ o ∧ o < 0x200 then some (s.dataIn.byte (o - 0x1C0))
  else if 0x200 ≤ o ∧ o < 0x240 then some (s.dataOut.byte (o - 0x200))
  else none

/-- The window offset of a host address, for the block at `base` (R71, R190); `none`: the address is not this block's. -/
def hostOffset? (base addr : Nat) : Option Offset :=
  if base ≤ addr ∧ addr < base + Config.windowBytes then some (BitVec.ofNat 12 (addr - base)) else none

/-- `MemRead(addr, size)` (R11, R190) on the block at `base`; an address outside its window does not reach it. -/
def memRead (base addr size : Nat) (s : State) : State :=
  match hostOffset? base addr with
  | some off => hostAccess (.read off size) s
  | none => s

/-- `MemWrite(addr, size, v)` (R11, R190) on the block at `base`; an address outside its window does not reach it. -/
def memWrite (base addr size : Nat) (v : Word) (s : State) : State :=
  match hostOffset? base addr with
  | some off => hostAccess (.write off size v) s
  | none => s

/-- The platform's report of a refused access, where the last access was one (R8, D43). -/
def State.busReport (s : State) : Option Nat :=
  match s.reply with
  | .busError off dir => some (Config.busErrorResponse off (decide (dir = .write)))
  | _ => none

end Sys2Proof.Machine
end

