-- ==== Sys2Proof/Machine/Agents.lean ====
section
/-! DEFINITION. Who moves next and what it does (R14, R84, R211): the host's access, the engine's completion, the hardware
reset. A command is fetched from where the block holds it: PEND for the engine (R49), the write itself for SRESET (R182). -/

namespace Sys2Proof.Machine

/-- What the next step is. -/
inductive Action where
  /-- Run the command `i` in the state `s`, in which its event has been consumed. -/
  | run (i : Instr) (s : State)
  /-- The step is over with this state. -/
  | done (s : State)
  /-- The machine cannot go on. -/
  | stop (r : Fault)

/-- The command word that `PEND` holds (R49, R101). -/
def State.pendWord (s : State) : Word := commandWord s.pendOp s.pendType

/-- The command in flight: what `PEND` decodes to, if it is one the engine runs. SRESET never waits in PEND (R210, R211). -/
def State.pendingCommand (s : State) : Option Instr :=
  match decode s.pendWord with
  | .ok .sreset => none
  | .ok i => some i
  | .error _ => none

/-- The engine's turn: enabled exactly while `BUSY = 1` (R211). -/
def engineTurn (s : State) : Action :=
  if s.busy then
    match s.pendingCommand with
    | some i => .run i s
    | none => .stop .pendHoldsNoCommand
  else .done s

/-- The command a host access runs in its own step: the exact SRESET word written to CMD (R182, R250). -/
def Access.command? : Access → Option Instr
  | .read _ _ => none
  | .write off size v =>
    match accessTarget? off size with
    | some .cmd => if v = sresetWord then decode? v else none
    | _ => none

/-- The host's turn (R180, R182). -/
def hostTurn (a : Access) (s : State) : Action :=
  match a.command? with
  | some i => .run i { s with reply := .written }
  | none => .done (hostAccess a s)

/-- The next step (R14). With no input left, the engine is the one agent that can still move (weak fairness, R211). -/
def nextAction (s : State) : Action :=
  match s.events with
  | [] => engineTurn s
  | .engine :: es => engineTurn { s with events := es }
  | .bus a :: es => hostTurn a { s with events := es }
  | .hardwareReset :: es => .done (hardReset { s with events := es })

/-- The state in which the word `v` is the next command to run: a word the engine runs stands in PEND with `BUSY = 1` and
the engine's turn next; any other word, SRESET among them, is the host's next write to CMD. -/
def placeCommand (v : Word) (s : State) : State :=
  match decode v with
  | .ok .sreset => { s with events := .bus (.write 0x004#12 4 v) :: s.events }
  | .ok _ => { latch v s with events := .engine :: s.events }
  | .error _ => { s with events := .bus (.write 0x004#12 4 v) :: s.events }

end Sys2Proof.Machine
end

