-- ==== Sys2Proof/Machine/Sha1.lean ====
section
/-! DEFINITION. SHA-1 and HMAC-SHA1 (40_primitives.md R131 to R138). -/

namespace Sys2Proof.Machine

/-- The chaining value: five 32-bit words (R133). -/
structure Chain where
  h0 : Word
  h1 : Word
  h2 : Word
  h3 : Word
  h4 : Word
  deriving DecidableEq, Repr

/-- `H_init` (R133). -/
def chainInit : Chain := ⟨0x67452301#32, 0xEFCDAB89#32, 0x98BADCFE#32, 0x10325476#32, 0xC3D2E1F0#32⟩

/-- `ROTL_n(x)` (R9). -/
def rotl (n : Nat) (x : Word) : Word := x <<< n ||| x >>> (32 - n)

/-- `Pad(m)` (R132). -/
def sha1Pad (m : List Byte) : List Byte :=
  m ++ [0x80#8] ++ zeros ((119 - m.length % 64) % 64) ++ be64 (BitVec.ofNat 64 (8 * m.length))

/-- The big-endian words of a block: `W[0..15]` (R134). -/
def beWords : List Byte → List Word
  | b0 :: b1 :: b2 :: b3 :: r => beWord b0 b1 b2 b3 :: beWords r
  | _ => []

/-- `n` more words of the message schedule, the newest first: `W[t-3]`, `W[t-8]`, `W[t-14]`, `W[t-16]` stand at places 2, 7, 13
and 15 (R134). -/
def extendSchedule : Nat → List Word → List Word
  | 0, ws => ws
  | n + 1, ws => extendSchedule n (rotl 1 (ws.getD 2 0 ^^^ ws.getD 7 0 ^^^ ws.getD 13 0 ^^^ ws.getD 15 0) :: ws)

/-- `W[0..79]` (R134). -/
def schedule (block : List Byte) : List Word := (extendSchedule 64 (beWords block).reverse).reverse

/-- `f_t(b,c,d)` (R135). -/
def roundFun (t : Nat) (b c d : Word) : Word :=
  if t < 20 then (b &&& c) ||| (~~~b &&& d)
  else if t < 40 then b ^^^ c ^^^ d
  else if t < 60 then (b &&& c) ||| (b &&& d) ||| (c &&& d)
  else b ^^^ c ^^^ d

/-- `K_t` (R135). -/
def roundConst (t : Nat) : Word :=
  if t < 20 then 0x5A827999#32
  else if t < 40 then 0x6ED9EBA1#32
  else if t < 60 then 0x8F1BBCDC#32
  else 0xCA62C1D6#32

/-- One round with the schedule word `w` (R134); `h0 .. h4` hold `a .. e`. -/
def sha1Round (t : Nat) (w : Word) (h : Chain) : Chain :=
  { h0 := rotl 5 h.h0 + roundFun t h.h1 h.h2 h.h3 + h.h4 + roundConst t + w
    h1 := h.h0
    h2 := rotl 30 h.h1
    h3 := h.h2
    h4 := h.h3 }

/-- The rounds from `t` on, one for each schedule word. -/
def sha1Rounds : Nat → List Word → Chain → Chain
  | _, [], h => h
  | t, w :: ws, h => sha1Rounds (t + 1) ws (sha1Round t w h)

/-- Word-wise addition modulo 2^32 (R134, R140). -/
def chainAdd (h r : Chain) : Chain :=
  { h0 := h.h0 + r.h0, h1 := h.h1 + r.h1, h2 := h.h2 + r.h2, h3 := h.h3 + r.h3, h4 := h.h4 + r.h4 }

/-- `Compress(H, B)` (R134). -/
def sha1Compress (h : Chain) (block : List Byte) : Chain := chainAdd h (sha1Rounds 0 (schedule block) h)

/-- `n` 64-byte blocks of `m`, in order (R131). -/
def sha1Blocks : Nat → List Byte → Chain → Chain
  | 0, _, h => h
  | n + 1, m, h => sha1Blocks n (m.drop 64) (sha1Compress h (m.take 64))

/-- The digest bytes of a chaining value (R131). -/
def chainBytes (h : Chain) : List Byte := be32 h.h0 ++ be32 h.h1 ++ be32 h.h2 ++ be32 h.h3 ++ be32 h.h4

/-- How many compressions hashing `m` takes (R139). -/
def sha1BlockCount (m : List Byte) : Nat := (sha1Pad m).length / 64

/-- `SHA1(m)` (R131). -/
def sha1 (m : List Byte) : List Byte := chainBytes (sha1Blocks (sha1BlockCount m) (sha1Pad m) chainInit)

/-- Every byte XORed with one value. -/
def xorEach (x : Byte) (s : List Byte) : List Byte := s.map (· ^^^ x)

/-- `K0` (R136). -/
def hmacKeyBlock (k : List Byte) : List Byte :=
  if k.length ≤ 64 then k ++ zeros (64 - k.length) else sha1 k ++ zeros 44

/-- `K0 ⊕ ipad` (R136). -/
def innerKey (k : List Byte) : List Byte := xorEach 0x36#8 (hmacKeyBlock k)

/-- `K0 ⊕ opad` (R136). -/
def outerKey (k : List Byte) : List Byte := xorEach 0x5C#8 (hmacKeyBlock k)

/-- `HMAC_SHA1(k, m)` (R136). -/
def hmacSha1 (k m : List Byte) : List Byte := sha1 (outerKey k ++ sha1 (innerKey k ++ m))

/-- `IS(k)` (R138). -/
def innerSchedule (k : List Byte) : Chain := sha1Compress chainInit (innerKey k)

/-- `OS(k)` (R138). -/
def outerSchedule (k : List Byte) : Chain := sha1Compress chainInit (outerKey k)

/-- SHA-1 continued from a chaining value over `m`, 64 bytes having been hashed before it: `Pad` counts them (R138). -/
def sha1Continue (h : Chain) (m : List Byte) : List Byte :=
  let padded := m ++ [0x80#8] ++ zeros ((119 - m.length % 64) % 64) ++ be64 (BitVec.ofNat 64 (8 * (64 + m.length)))
  chainBytes (sha1Blocks (padded.length / 64) padded h)

/-- HMAC from the two chaining values, without the key (R138). -/
def hmacFromSchedule (inner outer : Chain) (m : List Byte) : List Byte :=
  sha1Continue outer (sha1Continue inner m)

end Sys2Proof.Machine
end

