-- ==== Sys2Proof/Machine/Primitives.lean ====
section
/-! DEFINITION. The keystream pad, the XOR transform, the integrity tag and the constant-time comparator (40_primitives.md
R147 to R153). -/

namespace Sys2Proof.Machine

/-- `KeystreamPad(k, iv)` (R147): the whole IV, nothing else. -/
def keystreamPad (k iv : List Byte) : List Byte := hmacSha1 k iv

/-- `XorPad(x, pad)` (R149): byte `i` is `x[i] XOR pad[i]`, as many bytes as `x` has. -/
def xorPad (x pad : List Byte) : List Byte := List.zipWith (· ^^^ ·) x pad

/-- The full integrity HMAC over payload, then IV (R150, R151). -/
def integrityHmac (k p iv : List Byte) : List Byte := hmacSha1 k (p ++ iv)

/-- `IntegrityTag(k, p, iv)` (R150, R152): the first four bytes. -/
def integrityTag (k p iv : List Byte) : List Byte := slice (integrityHmac k p iv) 0 Config.tagLen

/-- `CTEqual4(a, b)` (R153): all four bytes are always combined before the one test. -/
def ctEqual4 (a b : List Byte) : Bool :=
  let d := (a.getD 0 0#8 ^^^ b.getD 0 0#8) ||| (a.getD 1 0#8 ^^^ b.getD 1 0#8) |||
    (a.getD 2 0#8 ^^^ b.getD 2 0#8) ||| (a.getD 3 0#8 ^^^ b.getD 3 0#8)
  decide (d = 0#8)

/-- The contents of SCRATCH (R48): pad, body and zeros up to byte 36, full HMAC, eight zeros. -/
def scratchImage (pad body full : List Byte) : List Byte := pad ++ body ++ zeros (16 - body.length) ++ full ++ zeros 8

end Sys2Proof.Machine
end

