-- ==== Sys2Proof/Machine/Codec.lean ====
section
/-! DEFINITION. The commands DECRYPT and ENCRYPT, the engine's completion step of each (42_commands.md sections 4, 5). -/

namespace Sys2Proof.Machine

/-- DECRYPT's work on a token of format `f`, once the lengths agree (R230 steps 2 to 7). -/
def openToken (f : Format) (s : State) : State :=
  let n := f.payloadLen
  let tok := s.input f.messageLen
  let iv := slice tok 0 16
  let pad := keystreamPad s.actEncKey iv
  let p := xorPad (slice tok 16 (16 + n)) pad
  let full := integrityHmac s.actIntKey p iv
  let hashed := { s with scratch := Memory.ofBytes (scratchImage pad p full) }
  if ctEqual4 (slice full 0 4) (slice tok (16 + n) (16 + n + 4)) then
    complete .ok
      { hashed with
        dataOut := Memory.ofBytes (p ++ zeros (Config.dataOutBytes - n))
        outLen := BitVec.ofNat 8 n }
  else raise .signatureCheckFailed hashed

/-- DECRYPT (R230, R231): the state, then the type's format, then the length, then the tag. -/
def decrypt (s : State) : State :=
  if s.lifecycle ≠ .keyed then raise .notConfigured s
  else
    match formatRow s.actType with
    | none => raise .unknownType s
    | some f => if s.inLen.toNat ≠ f.messageLen then raise .badMessageLength s else openToken f s

/-- DECRYPT (R230 to R233). -/
def execDecrypt (s : State) : Host.Outcome State Fault Refusal := .next (decrypt s)

/-- ENCRYPT's work on a plaintext of format `f`, once the lengths agree (R240). -/
def sealToken (f : Format) (s : State) : State :=
  let n := f.payloadLen
  let iv := s.initVector
  let x := s.input n
  let pad := keystreamPad s.actEncKey iv
  let c := xorPad x pad
  let full := integrityHmac s.actIntKey x iv
  complete .ok
    { s with
      scratch := Memory.ofBytes (scratchImage pad c full)
      dataOut := Memory.ofBytes (iv ++ c ++ slice full 0 4 ++ zeros (Config.dataOutBytes - f.messageLen))
      outLen := BitVec.ofNat 8 f.messageLen }

/-- ENCRYPT (R240, R241): the state, then the type's format, then the IV length, then the plaintext length. -/
def encrypt (s : State) : State :=
  if s.lifecycle ≠ .keyed then raise .notConfigured s
  else
    match formatRow s.actType with
    | none => raise .unknownType s
    | some f =>
      if s.ivLen.toNat ≠ Config.ivLen then raise .badInitVectorLength s
      else if s.inLen.toNat ≠ f.payloadLen then raise .badPlainLength s
      else sealToken f s

/-- ENCRYPT (R240 to R243). -/
def execEncrypt (s : State) : Host.Outcome State Fault Refusal := .next (encrypt s)

end Sys2Proof.Machine
end

