-- ==== Sys2Proof/Machine/Lifecycle.lean ====
section
/-! DEFINITION. The commands NOP, CONFIGURE, RELEASE and SRESET (42_commands.md sections 2, 3, 6, 7). The meanings of NOP,
CONFIGURE and RELEASE are the engine's completion step (R211); that of SRESET is the host's write step (R250). -/

namespace Sys2Proof.Machine

/-- NOP (R215): `Complete(OK)`. -/
def execNop (s : State) : Host.Outcome State Fault Refusal := .next (complete .ok s)

/-- CONFIGURE of type `t` (R221). A success leaves `DATA_OUT`, `OUT_LEN` and `SCRATCH` as they were (R221 "Not touched", R44),
so an acquire from KEYED keeps them, though R306 calls the result the same from every start. DESIGN CHOICE: R221, R44 and R290
are followed (log 11). -/
def configure (t : BitVec 3) (s : State) : State :=
  match formatRow t with
  | none => raise .unknownType s
  | some _ =>
    if s.encKeyLen.toNat > Config.keyMax ∨ s.intKeyLen.toNat > Config.keyMax then raise .badKeyLength s
    else
      complete .ok
        { s with actType := t, actEncKey := s.stagedEncKey, actIntKey := s.stagedIntKey, lifecycle := .keyed }

/-- CONFIGURE (R220 to R222). -/
def execConfigure (t : BitVec 3) (s : State) : Host.Outcome State Fault Refusal := .next (configure t s)

/-- RELEASE (R245, R246): everything that can hold key, IV or payload bytes is zeroed; the interrupt state stays. -/
def execRelease (s : State) : Host.Outcome State Fault Refusal :=
  .next <| complete .ok
    { s with
      scratch := Memory.ofBytes (zeros Config.scratchBytes)
      dataOut := Memory.ofBytes (zeros Config.dataOutBytes)
      outLen := 0#8
      dataIn := Memory.ofBytes (zeros Config.dataInBytes)
      ivBuf := Memory.ofBytes (zeros Config.ivBufBytes)
      len := 0#32
      encKeyStage := Memory.ofBytes (zeros Config.keyMax)
      intKeyStage := Memory.ofBytes (zeros Config.keyMax)
      actEncKey := []
      actIntKey := []
      actType := 0#3
      lifecycle := .released }

/-- SRESET (R250, R251, R301): `SoftReset()`, BUSY or not; a command in flight is abandoned and no DONE is raised. -/
def execSreset (s : State) : Host.Outcome State Fault Refusal := .next (softReset s)

end Sys2Proof.Machine
end

