-- ==== Sys2Proof/Machine/Dispatch.lean ====
section
/-! DEFINITION. One arm per command: what its own step does (R211, R250). -/

namespace Sys2Proof.Machine

def exec (i : Instr) (s : State) : Host.Outcome State Fault Refusal :=
  match i with
  | .nop => Sys2Proof.Machine.execNop s
  | .configure t => Sys2Proof.Machine.execConfigure t s
  | .decrypt => Sys2Proof.Machine.execDecrypt s
  | .encrypt => Sys2Proof.Machine.execEncrypt s
  | .release => Sys2Proof.Machine.execRelease s
  | .sreset => Sys2Proof.Machine.execSreset s

end Sys2Proof.Machine
end

