-- ==== Sys2Proof/Machine/HostProgram.lean ====
section
/-! DEFINITION. The host as the spec writes its programs (30_encoding.md R116, R117, R119): statements, the accesses a host
makes as it runs them against one block, what it reads back, and the programs of the source's operations. The host decides on
what it reads, so a program is not a fixed list of accesses. -/

namespace Sys2Proof.Machine

/-- `offset(X[w]) = base(X) + 4w` (R116). -/
def Buffer.wordOffset (b : Buffer) (w : Nat) : Offset := BitVec.ofNat 12 (b.base + 4 * w)

/-- `WR` at an offset (R116). -/
def wr (off : Offset) (v : Word) : Event := .bus (.write off 4 v)

/-- `RD` at an offset (R116); the value arrives as the reply. -/
def rd (off : Offset) : Event := .bus (.read off 4)

/-! ### Statements -/

/-- One statement of a host program (R116, R117). -/
inductive Stmt where
  /-- `WR <reg>, <imm32>`. -/
  | wr (off : Offset) (v : Word)
  /-- `WR <reg>, <name>`: the value of the program's `RD` number `k`, counted from 0. It is a free value where that `RD` was
  refused or has not run. DESIGN CHOICE (log 13). -/
  | wrName (off : Offset) (k : Nat)
  /-- `RD <reg> -> <name>`: the name is the `RD`'s number. -/
  | rd (off : Offset)
  /-- `WAIT`: `L: RD STATUS -> s`, then `if s[0] = 1 goto L`. Its name `s` is its own: no later statement uses it, and its `RD`s
  have no number. DESIGN CHOICE (log 12). -/
  | wait
  /-- "read `DATA_OUT[0:OUT_LEN]` if `ERR_CODE = 0`" (R119), both fields those of the `STATUS` word read last, not in a
  `WAIT`. -/
  | readOut
  deriving DecidableEq, Repr

/-- `CMD.<op>` (R117). -/
def cmd (i : Instr) : Stmt := .wr 0x004#12 (encode i)

/-- `SETLEN in=, iv=, ek=, ik=` (R117). -/
def setLen (inLen ivLen encKeyLen intKeyLen : BitVec 8) : Stmt := .wr 0x014#12 (intKeyLen ++ encKeyLen ++ ivLen ++ inLen)

/-- `CLEAR` (R117). -/
def clearInterrupts : Stmt := .wr 0x00C#12 0x00000007#32

/-- The words of a byte string, a short last group padded with 00 on the right (R117). -/
def paddedWords : List Byte → List Word
  | [] => []
  | [a] => [beWord a 0#8 0#8 0#8]
  | [a, b] => [beWord a b 0#8 0#8]
  | [a, b, c] => [beWord a b c 0#8]
  | a :: b :: c :: d :: r => beWord a b c d :: paddedWords r

/-- The words written from word index `w` of a window on. -/
def loadWords (b : Buffer) : Nat → List Word → List Stmt
  | _, [] => []
  | w, v :: vs => .wr (b.wordOffset w) v :: loadWords b (w + 1) vs

/-- `LOAD <win>, <bytes>` (R117): the expansion to the letter, so that more bytes than the window has are written to the offsets
that follow it, modulo 4096. DESIGN CHOICE (log 14). -/
def load (b : Buffer) (bytes : List Byte) : List Stmt := loadWords b 0 (paddedWords bytes)

/-! ### The host running a program -/

/-- A host in the course of a program: the statements still to run, and the values of its names, one for each `RD` that is over,
oldest first. The `RD`s of a `WAIT` are not among them (log 12). -/
structure HostRun where
  code : List Stmt
  read : List Word
  deriving DecidableEq, Repr

/-- The reads of `DATA_OUT[0:OUT_LEN]` when the `STATUS` word says `ERR_CODE = 0`, else none (R119, R25). R290 and R311 have
a host check `LAST_OP` too; this host checks `ERR_CODE` alone, as R119 has it. DESIGN CHOICE (log 12). -/
def readsOf (status : Word) : List Stmt :=
  if status.extractLsb' 8 4 = 0#4 then
    (List.range (((status.extractLsb' 16 8).toNat + 3) / 4)).map fun w => .rd (Buffer.dataOut.wordOffset w)
  else []

/-- The statements with a leading `readOut` decided by the `STATUS` word read last. -/
def decideReads (status : Word) : List Stmt → List Stmt
  | .readOut :: c => readsOf status ++ decideReads status c
  | c => c

/-- The host at its next bus access. -/
def HostRun.ready (h : HostRun) : HostRun := { h with code := decideReads (h.read.getLastD 0#32) h.code }

/-- The access that a host makes next, `none` at the end of its program. -/
def HostRun.access? (h : HostRun) : Option Access :=
  match h.ready.code with
  | .wr off v :: _ => some (.write off 4 v)
  | .wrName off k :: _ => some (.write off 4 (h.read.getD k (Config.unreadName k)))
  | .rd off :: _ => some (.read off 4)
  | .wait :: _ => some (.read 0x008#12 4)
  | .readOut :: _ | [] => none

/-- The host after the bus has answered its access. A `WAIT` stays where it is while `BUSY` reads 1; any other statement is
over. A `WAIT` keeps no word it read and takes no number: the spec does not scope its `s` (R117). DESIGN CHOICE (log 12). An `RD`
refused with a bus error returns no data (R72), and the spec is silent on the host program after it: here it goes on, the `RD`
keeps its number, and its name has a free value. DESIGN CHOICE (log 13). -/
def HostRun.answered (h : HostRun) (r : Reply) : HostRun :=
  match h.ready.code with
  | .rd _ :: c =>
    match r with
    | .data v => { code := c, read := h.read ++ [v] }
    | _ => { code := c, read := h.read ++ [Config.unreadName h.read.length] }
  | .wait :: c =>
    match r with
    | .data v => if v.getLsbD 0 then h.ready else { h with code := c }
    | _ => { h with code := c }
  | _ :: c => { h with code := c }
  | [] => h

/-! ### A host and its block, turn by turn -/

/-- Who takes the next turn (R14). -/
inductive Turn where
  | host
  | engine
  deriving DecidableEq, Repr

/-- A block and the host that runs a program against it. -/
structure Session where
  block : State
  host : HostRun
  deriving DecidableEq, Repr

/-- The block after one step on one input. -/
def Session.feed (x : Session) (e : Event) : Host.Outcome State Fault Refusal := step { x.block with events := [e] }

/-- One turn: the host's next access and its answer, or the engine's move. -/
def Session.turn (x : Session) : Turn → Host.Outcome Session Fault Refusal
  | .host =>
    match x.host.access? with
    | none => .next x
    | some a =>
      match x.feed (.bus a) with
      | .next t => .next ⟨t, x.host.answered t.reply⟩
      | .fault r => .fault r
      | .refused r => .refused r
  | .engine =>
    match x.feed .engine with
    | .next t => .next { x with block := t }
    | .fault r => .fault r
    | .refused r => .refused r

/-- The turns of a schedule; any schedule may come (U16). -/
def Session.run : List Turn → Session → Host.Outcome Session Fault Refusal
  | [], x => .next x
  | c :: cs, x =>
    match x.turn c with
    | .next y => y.run cs
    | .fault r => .fault r
    | .refused r => .refused r

/-- A host at the start of a program against a block. -/
def Session.start (s : State) (p : List Stmt) : Session := ⟨s, ⟨p, []⟩⟩

/-! ### The source's operations as host programs (R119) -/

/-- "run": `WR CMD`, `WAIT`, then `RD STATUS` to check `ERR_CODE` (R119). -/
def runCommand (i : Instr) : List Stmt := [cmd i, .wait, .rd 0x008#12]

/-- The length that a host declares for a byte string: its number of bytes, which `SETLEN` takes from 0 to 255 (R117). The spec
says nothing of a longer token, IV or plaintext: a free value. DESIGN CHOICE (log 14). A key is never longer (`hostKey`). -/
def lenField (bs : List Byte) : BitVec 8 :=
  if bs.length ≤ 255 then BitVec.ofNat 8 bs.length else Config.overlongLength bs.length

/-- The key that a host writes for a key: itself, or its SHA-1 digest where it is longer than the staging window (R137, D7). -/
def hostKey (k : List Byte) : List Byte := if k.length ≤ Config.keyMax then k else sha1 k

/-- One key staged: the `LOAD` of the key that the host writes for it (R119, R137). -/
def loadKey (b : Buffer) (k : List Byte) : List Stmt := load b (hostKey k)

/-- `acquire(type, keys)` (R119, R305 step 4), for keys of any length (R137). -/
def acquireProgram (t : BitVec 3) (encKey intKey : List Byte) : List Stmt :=
  loadKey .encKey encKey ++ loadKey .intKey intKey ++
    [setLen 0#8 0#8 (lenField (hostKey encKey)) (lenField (hostKey intKey))] ++ runCommand (.configure t)

/-- `decrypt(type, keys, token)` on a configured block (R119). -/
def decryptProgram (token : List Byte) : List Stmt :=
  load .dataIn token ++ [setLen (lenField token) 0#8 0#8 0#8] ++ runCommand .decrypt ++ [.readOut]

/-- `encrypt(type, keys, initVector, plaintext)` on a configured block (R119). The token is read where there is one, that is
where `ERR_CODE = 0`. DEDUCED (log 12). -/
def encryptProgram (iv plaintext : List Byte) : List Stmt :=
  load .iv iv ++ load .dataIn plaintext ++ [setLen (lenField plaintext) (lenField iv) 0#8 0#8] ++
    runCommand .encrypt ++ [.readOut]

/-- `encryptPrice`: the price in micros as 8 big-endian bytes (R119, R83). -/
def encryptPriceProgram (iv : List Byte) (micros : BitVec 64) : List Stmt := encryptProgram iv (be64 micros)

/-- `release(codec)` (R119). -/
def releaseProgram : List Stmt := runCommand .release

/-- The bytes that the words read after the program's `RD` number `k` make, cut to a length: after a decrypt or encrypt,
the payload or token of `OUT_LEN` bytes, `k` being the number of its `RD STATUS`. -/
def HostRun.bytesAfter (h : HostRun) (k len : Nat) : List Byte := ((h.read.drop (k + 1)).flatMap be32).take len

/-- The result of a decrypt or encrypt, once it is over: `none` where `ERR_CODE` is not 0, or no `RD` has number `k` (R119). -/
def HostRun.result? (h : HostRun) (k : Nat) : Option (List Byte) :=
  match h.read[k]? with
  | none => none
  | some status =>
    if status.extractLsb' 8 4 = 0#4 then some (h.bytesAfter k (status.extractLsb' 16 8).toNat) else none

/-- `decryptWithTransform`: `decrypt`'s result, then the host's transform (R119). -/
def HostRun.transformed? (h : HostRun) (f : List Byte → List Byte) (k : Nat) : Option (List Byte) := (h.result? k).map f

/-- `decryptPrice`: `decrypt`'s result as a price in micros (R119, R83). -/
def HostRun.priceMicros? (h : HostRun) (k : Nat) : Option Nat :=
  (h.result? k).map fun bs => bs.foldl (fun n b => n * 256 + b.toNat) 0

end Sys2Proof.Machine
end

