-- ==== Sys2Proof/Machine/Platform.lean ====
section
/-! DEFINITION. Several blocks on one platform (R289): each is its own machine, and they share nothing. -/

namespace Sys2Proof.Machine

/-- The blocks of a platform, by instance number. -/
abbrev Platform := List State

/-- Every block after its own hardware reset (R289). -/
def Platform.reset : Platform := List.replicate Config.numInstances State.reset

/-- One step of instance `k`; no other block takes part. -/
def Platform.stepAt (k : Nat) (p : Platform) : Host.Outcome Platform Fault Refusal :=
  match p[k]? with
  | none => .next p
  | some s =>
    match step s with
    | .next t => .next (p.set k t)
    | .fault r => .fault r
    | .refused r => .refused r

/-- The instance and offset a host address reaches (R71, R190): blocks have no identifiers other than their addresses. -/
def Platform.route (p : Platform) (addr : Nat) : Option (Nat × Offset) :=
  (List.range p.length).findSome? fun k => (hostOffset? (Config.baseAddr k) addr).map fun off => (k, off)

/-- A host access by full address arrives as the next input of the block it reaches. -/
def Platform.present (p : Platform) (addr size : Nat) (v? : Option Word) : Platform :=
  match p.route addr with
  | none => p
  | some (k, off) =>
    let a : Access := match v? with
      | some v => .write off size v
      | none => .read off size
    p.modify k fun s => { s with events := s.events ++ [.bus a] }

/-- The host interrupt inputs and their levels (R50, R270, R289). -/
def Platform.irqInputs (p : Platform) : List (Nat × Bool) :=
  p.zipIdx.map fun (s, k) => (Config.irqLine k, s.irq)

end Sys2Proof.Machine
end

