-- ==== Sys2Proof/Machine/Timing.lean ====
section
/-! DEFINITION. What the time of a command may depend on (R17, R275), and the SHA-1 work it does (R139, R322). -/

namespace Sys2Proof.Machine

/-- The state or length check that fails for a command, `ok` when none does (R274, R275). The type check of CONFIGURE and the
tag check of DECRYPT are not among them. -/
def State.failedCheck (s : State) : Instr → ResultCode
  | .configure t =>
    match formatRow t with
    | none => .ok
    | some _ => if s.encKeyLen.toNat > Config.keyMax ∨ s.intKeyLen.toNat > Config.keyMax then .badKeyLength else .ok
  | .decrypt =>
    if s.lifecycle ≠ .keyed then .notConfigured
    else
      match formatRow s.actType with
      | none => .ok
      | some f => if s.inLen.toNat ≠ f.messageLen then .badMessageLength else .ok
  | .encrypt =>
    if s.lifecycle ≠ .keyed then .notConfigured
    else
      match formatRow s.actType with
      | none => .ok
      | some f =>
        if s.ivLen.toNat ≠ Config.ivLen then .badInitVectorLength
        else if s.inLen.toNat ≠ f.payloadLen then .badPlainLength
        else .ok
  | .nop | .release | .sreset => .ok

/-- `LATENCY` of the command `i` in the state `s`: the platform's open constant of the public quantities (R275). -/
def State.latency (s : State) (i : Instr) : Nat :=
  Config.latency (opcode i) s.actType s.lifecycle.code (s.failedCheck i).code

end Sys2Proof.Machine
end

