-- ==== Sys2Proof/Safety.lean ====
section
/-! DEFINITION. What a good state, a reachable state and a hidden secret are: the terms the claims use. -/

namespace Sys2Proof.Machine

/-- The reset value of every piece of the block's state (R55); an array with nothing listed reads 0 at every index. -/
structure ResetValues (s : State) : Prop where
  lifecycle : s.lifecycle = .unconfigured
  busy : s.busy = false
  actType : s.actType = 0#3
  actEncKey : s.actEncKey = []
  actIntKey : s.actIntKey = []
  errCode : s.errCode.code = 0#4
  lastOp : s.lastOp = 0#4
  outLen : s.outLen = 0#8
  intStatus : s.intStatus = 0#3
  intEnable : s.intEnable = 0#3
  len : s.len = 0#32
  encKeyStage : s.encKeyStage = []
  intKeyStage : s.intKeyStage = []
  ivBuf : s.ivBuf = []
  dataIn : s.dataIn = []
  dataOut : s.dataOut = []
  scratch : s.scratch = []
  pendOp : s.pendOp = 0#4
  pendType : s.pendType = 0#3
  irq : s.irq = false

/-- The invariants (R52), with the facts they rest on: key lengths (R46), array sizes, and what PEND holds (R210). -/
structure BlockInv (s : State) : Prop where
  /-- R52 (b). -/
  keyedType : s.lifecycle = .keyed → s.actType.toNat < 4
  /-- R52 (c). -/
  unkeyed : s.lifecycle ≠ .keyed → s.actType = 0#3 ∧ s.actEncKey = [] ∧ s.actIntKey = []
  /-- R52 (e). -/
  outLenLegal : s.outLen.toNat ∈ [0, 8, 12, 16, 28, 32, 36]
  /-- R52 (f). -/
  dataOutTail : ∀ k, s.outLen.toNat ≤ k → s.dataOut.byte k = 0#8
  /-- R52 (g). -/
  scratchTail : ∀ k, 56 ≤ k → s.scratch.byte k = 0#8
  /-- R46. -/
  keyLengths : s.actEncKey.length ≤ 64 ∧ s.actIntKey.length ≤ 64
  /-- R210: only a valid word other than SRESET sets BUSY. -/
  inFlight : s.busy = true → ∃ i, s.pendingCommand = some i
  /-- Every array is in canonical form within its size (R22, R48). -/
  arrays : s.encKeyStage.wf 64 = true ∧ s.intKeyStage.wf 64 = true ∧ s.ivBuf.wf 16 = true ∧ s.dataIn.wf 64 = true ∧
    s.dataOut.wf 64 = true ∧ s.scratch.wf 64 = true

/-- A state some run from reset reaches, whatever inputs come (R52, R14). -/
inductive Reachable : State → Prop where
  | reset (es : List Event) : Reachable { State.reset with events := es }
  | step (s t : State) : Reachable s → Machine.step s = .next t → Reachable t

/-- The next move is the engine's, `es` being the inputs after it. -/
def EngineMoves (s : State) (es : List Event) : Prop := (s.events = [] ∧ es = []) ∨ s.events = .engine :: es

/-- The next move is the host's access `a`, `es` being the inputs after it. -/
def HostMoves (s : State) (a : Access) (es : List Event) : Prop := s.events = .bus a :: es

/-- The next move is the host's write of the SRESET word to CMD. -/
def SresetMoves (s : State) (es : List Event) : Prop := HostMoves s (.write 0x004#12 4 0x0000000F#32) es

/-- The state with its secrets blanked: the staging windows, the active keys, SCRATCH (R280). -/
def State.hideSecrets (s : State) : State :=
  { s with actEncKey := [], actIntKey := [], encKeyStage := [], intKeyStage := [], scratch := [] }

/-- Two states that differ in their secrets at most. -/
def SameButSecrets (s u : State) : Prop := s.hideSecrets = u.hideSecrets

/-- The state with the staging windows blanked. -/
def State.hideStaging (s : State) : State := { s with encKeyStage := [], intKeyStage := [] }

/-- Two states that differ in their staging windows at most. -/
def SameButStaging (s u : State) : Prop := s.hideStaging = u.hideStaging

/-- A message type's code with its `messageLen` and `payloadLen` (R142), written out. -/
def TypeLengths (code : BitVec 3) (ml n : Nat) : Prop :=
  (code.toNat, ml, n) ∈ [(0, 36, 16), (1, 28, 8), (2, 28, 8), (3, 32, 12)]

end Sys2Proof.Machine
end

