-- ==== Sys2Proof/Certificates/Slice0/Obligations.lean ====
section
/-! DEFINITION. The statements for the provers. Bits of INT_STATUS: 0b001 DONE, 0b010 ERR, 0b100 WERR (R34). -/

open Sys2Proof Sys2Proof.Machine

/-! ### Encoding -/

/-- Decode and encode agree on all words (R106, R118): a word decodes to a command exactly when it is that command's word. -/
def Obligations.DecodeIffEncode : Prop :=
  ∀ (w : Word) (i : Instr), decode w = .ok i ↔ encode i = w

/-- R105: the formula of validity, the decoder, and the thirteen valid words are one and the same set. -/
def Obligations.ThirteenValidWords : Prop :=
  ∀ w : Word,
    ((∃ i, decode w = .ok i) ↔
      (w.extractLsb' 7 25 = 0#25 ∧
        (w.extractLsb' 0 4 = 0x1#4 ∨
          (w.extractLsb' 0 4 ∈ [0x0#4, 0x2#4, 0x3#4, 0x4#4, 0xF#4] ∧ w.extractLsb' 4 3 = 0#3)))) ∧
    ((∃ i, decode w = .ok i) ↔ validWord w = true) ∧
    ((∃ i, decode w = .ok i) ↔
      w ∈ [0x00000000#32, 0x00000001#32, 0x00000011#32, 0x00000021#32, 0x00000031#32, 0x00000041#32, 0x00000051#32,
        0x00000061#32, 0x00000071#32, 0x00000002#32, 0x00000003#32, 0x00000004#32, 0x0000000F#32])

/-- R118: each command's one word, the examples of illegal words, and that CONFIGURE 4 to 7 complete with UnknownType. -/
def Obligations.CommandWordsOfTheSpec : Prop :=
  decode 0x00000000#32 = .ok .nop ∧ encode .nop = 0x00000000#32 ∧
  decode 0x00000001#32 = .ok (.configure 0#3) ∧ encode (.configure 0#3) = 0x00000001#32 ∧
  decode 0x00000011#32 = .ok (.configure 1#3) ∧ encode (.configure 1#3) = 0x00000011#32 ∧
  decode 0x00000021#32 = .ok (.configure 2#3) ∧ encode (.configure 2#3) = 0x00000021#32 ∧
  decode 0x00000031#32 = .ok (.configure 3#3) ∧ encode (.configure 3#3) = 0x00000031#32 ∧
  decode 0x00000041#32 = .ok (.configure 4#3) ∧ encode (.configure 4#3) = 0x00000041#32 ∧
  decode 0x00000051#32 = .ok (.configure 5#3) ∧ encode (.configure 5#3) = 0x00000051#32 ∧
  decode 0x00000061#32 = .ok (.configure 6#3) ∧ encode (.configure 6#3) = 0x00000061#32 ∧
  decode 0x00000071#32 = .ok (.configure 7#3) ∧ encode (.configure 7#3) = 0x00000071#32 ∧
  decode 0x00000002#32 = .ok .decrypt ∧ encode .decrypt = 0x00000002#32 ∧
  decode 0x00000003#32 = .ok .encrypt ∧ encode .encrypt = 0x00000003#32 ∧
  decode 0x00000004#32 = .ok .release ∧ encode .release = 0x00000004#32 ∧
  decode 0x0000000F#32 = .ok .sreset ∧ encode .sreset = 0x0000000F#32 ∧
  (∀ w ∈ [0x00000005#32, 0x0000000E#32, 0x00000012#32, 0x00000081#32, 0x8000000F#32], ∀ i, decode w ≠ .ok i) ∧
  ∀ ty ∈ [4#3, 5#3, 6#3, 7#3], ∀ s, ∃ t, exec (.configure ty) s = .next t ∧ t.errCode = .unknownType

/-! ### Reset -/

/-- R55: the reset value of every piece of state, at reset, after a hardware reset and after SRESET, in any state; STATUS then
reads 0 and ID reads 0x48533101. The inputs to come and the last answer of the bus, the model's own fields, stay. -/
def Obligations.ResetLeavesTheResetValues : Prop :=
  (ResetValues State.reset ∧ regRead .status State.reset = 0#32 ∧ regRead .id State.reset = 0x48533101#32) ∧
  (∀ s es, s.events = .hardwareReset :: es →
    ∃ t, step s = .next t ∧ ResetValues t ∧ regRead .status t = 0#32 ∧ regRead .id t = 0x48533101#32 ∧
      t.events = es ∧ t.reply = s.reply) ∧
  (∀ s, ∃ t, exec .sreset s = .next t ∧ ResetValues t ∧ regRead .status t = 0#32 ∧ regRead .id t = 0x48533101#32 ∧
    t.events = s.events ∧ t.reply = s.reply)

/-- R301: the host's write of the SRESET word resets in its own step, whether or not BUSY is 1, to exactly what the hardware
reset gives. -/
def Obligations.SresetWriteEqualsHardwareReset : Prop :=
  ∀ s es, SresetMoves s es →
    ∃ t, step s = .next t ∧ ResetValues t ∧ t.events = es ∧ t.reply = .written ∧
      step { s with events := .hardwareReset :: es } = .next { t with reply := s.reply }

/-! ### Steps -/

/-- The engine's move is enabled exactly while BUSY = 1 (R211): then it runs the command that PEND holds, its input consumed and
nothing else changed around it; with BUSY = 0 it changes no state of the block. That a list of inputs says who moves, and may
name the engine while BUSY = 0, is the model's choice (log 1). -/
def Obligations.EngineRunsTheCommandInFlight : Prop :=
  (∀ s es i, EngineMoves s es → s.busy = true → decode (commandWord s.pendOp s.pendType) = .ok i → i ≠ .sreset →
    step s = exec i { s with events := es }) ∧
  (∀ s es, EngineMoves s es → s.busy = false → step s = .next { s with events := es })

/-- The host's write of the SRESET word runs SRESET (R182, R250), its input consumed and the write answered. -/
def Obligations.SresetWriteRunsSreset : Prop :=
  ∀ s es, SresetMoves s es → step s = exec .sreset { s with events := es, reply := .written }

/-- A command's word placed for the next step is what the next step runs: as the command in flight, or for SRESET as the
host's write. How a word is placed is the model's choice (log 9). -/
def Obligations.PlacedCommandRunsNext : Prop :=
  ∀ (s : State) (w : Word) (i : Instr), decode w = .ok i →
    step (s.withFetchWord 32 w.toNat) =
      exec i (if i = .sreset then { s with reply := .written }
        else { s with lastOp := w.extractLsb' 0 4, pendOp := w.extractLsb' 0 4, pendType := w.extractLsb' 4 3, busy := true })

/-- R210, R213: a word written to CMD while idle sets LAST_OP; a valid one is latched in PEND and sets BUSY, an illegal one is
refused with IllegalCommand; nothing else changes. -/
def Obligations.IdleCommandWriteIssuesOrRefuses : Prop :=
  ∀ s v es, HostMoves s (.write 0x004#12 4 v) es → s.busy = false → v ≠ 0x0000000F#32 →
    (validWord v = true →
      step s = .next { s with
        events := es, reply := .written, lastOp := v.extractLsb' 0 4, pendOp := v.extractLsb' 0 4,
        pendType := v.extractLsb' 4 3, busy := true }) ∧
    (validWord v = false →
      step s = .next { s with
        events := es, reply := .written, lastOp := v.extractLsb' 0 4, errCode := .illegalCommand,
        intStatus := s.intStatus ||| 0b011#3 })

/-! ### The register window -/

/-- R186: while BUSY, a write to CMD other than the exact SRESET word, and every write to LEN, ENC_KEY, INT_KEY, IV and
DATA_IN, sets WERR and changes nothing else. -/
def Obligations.BusyGateDropsWrites : Prop :=
  ∀ s off v es, HostMoves s (.write off 4 v) es → s.busy = true → off.toNat % 4 = 0 →
    ((off.toNat = 0x004 ∧ v ≠ 0x0000000F#32) ∨ off.toNat = 0x014 ∨ (0x100 ≤ off.toNat ∧ off.toNat < 0x190) ∨
      (0x1C0 ≤ off.toNat ∧ off.toNat < 0x200)) →
    step s = .next { s with events := es, reply := .written, intStatus := s.intStatus ||| 0b100#3 }

/-- R187: INT_STATUS (write 1 to clear, R34), INT_ENABLE (R38) and the exact SRESET word are accepted while BUSY; and while idle
they do the same (R182). -/
def Obligations.WritesAcceptedWhileBusy : Prop :=
  ∀ s v es,
    (HostMoves s (.write 0x00C#12 4 v) es →
      ∃ x : BitVec 3, step s = .next { s with events := es, reply := .written, intStatus := x } ∧
        ∀ i, i < 3 → x.getLsbD i = (s.intStatus.getLsbD i && !v.getLsbD i)) ∧
    (HostMoves s (.write 0x010#12 4 v) es →
      ∃ x : BitVec 3, step s = .next { s with events := es, reply := .written, intEnable := x } ∧
        ∀ i, i < 3 → x.getLsbD i = v.getLsbD i) ∧
    (SresetMoves s es → ∃ t, step s = .next t ∧ ResetValues t ∧ t.events = es)

/-- R184: a write to ID, STATUS or DATA_OUT changes nothing, BUSY or not; a read of CMD, ENC_KEY or INT_KEY returns 0. -/
def Obligations.ReadOnlyAndWriteOnlyRegisters : Prop :=
  ∀ s off es, off.toNat % 4 = 0 →
    (∀ v, HostMoves s (.write off 4 v) es →
      (off.toNat = 0x000 ∨ off.toNat = 0x008 ∨ (0x200 ≤ off.toNat ∧ off.toNat < 0x240)) →
      step s = .next { s with events := es, reply := .written }) ∧
    (HostMoves s (.read off 4) es → (off.toNat = 0x004 ∨ (0x100 ≤ off.toNat ∧ off.toNat < 0x180)) →
      step s = .next { s with events := es, reply := .data 0#32 })

/-- R72: an access of another size, misaligned, or at an offset outside every register is refused: the host learns the offset
and the direction, as its platform reports them, and the block changes no state. Every other access is not refused. The host learns it from the
model's field reply (log 2, log 3); that the platform's report is a number that depends on the offset and the direction alone is
the model's choice (log 5). -/
def Obligations.BusErrorsChangeNothing : Prop :=
  ∀ s off size es,
    ((size ≠ 4 ∨ off.toNat % 4 ≠ 0 ∨ (0x018 ≤ off.toNat ∧ off.toNat ≤ 0x0FF) ∨
        (0x190 ≤ off.toNat ∧ off.toNat ≤ 0x1BF) ∨ 0x240 ≤ off.toNat) →
      (HostMoves s (.read off size) es → step s = .next { s with events := es, reply := .busError off .read }) ∧
      (∀ v, HostMoves s (.write off size v) es →
        step s = .next { s with events := es, reply := .busError off .write }) ∧
      State.busReport { s with events := es, reply := .busError off .read } = some (Config.busErrorResponse off false) ∧
      State.busReport { s with events := es, reply := .busError off .write } = some (Config.busErrorResponse off true)) ∧
    (size = 4 → off.toNat % 4 = 0 →
      (off.toNat < 0x018 ∨ (0x100 ≤ off.toNat ∧ off.toNat < 0x190) ∨ (0x1C0 ≤ off.toNat ∧ off.toNat < 0x240)) →
      (HostMoves s (.read off size) es → ∃ t x, step s = .next t ∧ t.reply = .data x) ∧
      (∀ v, HostMoves s (.write off size v) es → ∃ t, step s = .next t ∧ t.reply = .written))

/-- R180, R76: the word each read returns, or its bus error, and that no read changes any state of the block, BUSY or not. -/
def Obligations.ReadsReturnTheRegisters : Prop :=
  ∀ s es,
    (HostMoves s (.read 0x000#12 4) es → step s = .next { s with events := es, reply := .data 0x48533101#32 }) ∧
    (HostMoves s (.read 0x004#12 4) es → step s = .next { s with events := es, reply := .data 0#32 }) ∧
    (HostMoves s (.read 0x008#12 4) es → step s = .next { s with events := es, reply := .data s.statusWord }) ∧
    (HostMoves s (.read 0x00C#12 4) es → step s = .next { s with events := es, reply := .data (0#29 ++ s.intStatus) }) ∧
    (HostMoves s (.read 0x010#12 4) es → step s = .next { s with events := es, reply := .data (0#29 ++ s.intEnable) }) ∧
    (HostMoves s (.read 0x014#12 4) es → step s = .next { s with events := es, reply := .data s.len }) ∧
    (∀ w < 32, HostMoves s (.read (BitVec.ofNat 12 (0x100 + 4 * w)) 4) es →
      step s = .next { s with events := es, reply := .data 0#32 }) ∧
    (∀ w < 4, HostMoves s (.read (BitVec.ofNat 12 (0x180 + 4 * w)) 4) es →
      step s = .next { s with
        events := es
        reply := .data (s.ivBuf.byte (4 * w) ++ s.ivBuf.byte (4 * w + 1) ++ s.ivBuf.byte (4 * w + 2) ++
          s.ivBuf.byte (4 * w + 3)) }) ∧
    (∀ w < 16, HostMoves s (.read (BitVec.ofNat 12 (0x1C0 + 4 * w)) 4) es →
      step s = .next { s with
        events := es
        reply := .data (s.dataIn.byte (4 * w) ++ s.dataIn.byte (4 * w + 1) ++ s.dataIn.byte (4 * w + 2) ++
          s.dataIn.byte (4 * w + 3)) }) ∧
    (∀ w < 16, HostMoves s (.read (BitVec.ofNat 12 (0x200 + 4 * w)) 4) es →
      step s = .next { s with
        events := es
        reply := .data (s.dataOut.byte (4 * w) ++ s.dataOut.byte (4 * w + 1) ++ s.dataOut.byte (4 * w + 2) ++
          s.dataOut.byte (4 * w + 3)) }) ∧
    (∀ off size, HostMoves s (.read off size) es →
      (size ≠ 4 ∨ off.toNat % 4 ≠ 0 ∨ (0x018 ≤ off.toNat ∧ off.toNat < 0x100) ∨
        (0x190 ≤ off.toNat ∧ off.toNat < 0x1C0) ∨ 0x240 ≤ off.toNat) →
      step s = .next { s with events := es, reply := .busError off .read })

/-- R181: the fields of the STATUS word at their places, every other bit 0, with the numbers of the result codes (R261) and of the
lifecycle states (R28) that a host reads there. -/
def Obligations.StatusWordLayout : Prop :=
  ∀ s : State,
    let errCode : BitVec 4 := match s.errCode with
      | .ok => 0#4
      | .unknownType => 1#4
      | .badMessageLength => 2#4
      | .badInitVectorLength => 3#4
      | .badPlainLength => 4#4
      | .signatureCheckFailed => 5#4
      | .notConfigured => 6#4
      | .badKeyLength => 7#4
      | .illegalCommand => 8#4
    let stateCode : BitVec 2 := match s.lifecycle with
      | .unconfigured => 0b00#2
      | .keyed => 0b01#2
      | .released => 0b10#2
    s.statusWord =
      0#8 ++ s.outLen ++ s.lastOp ++ errCode ++ 0#1 ++ (if s.lifecycle = .keyed then s.actType else 0#3) ++
        stateCode ++ BitVec.ofBool (decide (s.lifecycle = .keyed)) ++ BitVec.ofBool s.busy

/-- R183: an accepted write to a buffer word changes exactly its four bytes, big-endian (R70), and no other state; an accepted
write to LEN stores all 32 bits (R39, R182) and changes no other state. -/
def Obligations.BufferWritesChangeFourBytes : Prop :=
  ∀ s w v es, s.busy = false →
    let Stored (old new : Memory) : Prop := ∀ k, new.byte k =
      if k = 4 * w then v.extractLsb' 24 8 else if k = 4 * w + 1 then v.extractLsb' 16 8
      else if k = 4 * w + 2 then v.extractLsb' 8 8 else if k = 4 * w + 3 then v.extractLsb' 0 8 else old.byte k
    (w < 16 → HostMoves s (.write (BitVec.ofNat 12 (0x100 + 4 * w)) 4 v) es →
      ∃ m, step s = .next { s with events := es, reply := .written, encKeyStage := m } ∧ Stored s.encKeyStage m) ∧
    (w < 16 → HostMoves s (.write (BitVec.ofNat 12 (0x140 + 4 * w)) 4 v) es →
      ∃ m, step s = .next { s with events := es, reply := .written, intKeyStage := m } ∧ Stored s.intKeyStage m) ∧
    (w < 4 → HostMoves s (.write (BitVec.ofNat 12 (0x180 + 4 * w)) 4 v) es →
      ∃ m, step s = .next { s with events := es, reply := .written, ivBuf := m } ∧ Stored s.ivBuf m) ∧
    (w < 16 → HostMoves s (.write (BitVec.ofNat 12 (0x1C0 + 4 * w)) 4 v) es →
      ∃ m, step s = .next { s with events := es, reply := .written, dataIn := m } ∧ Stored s.dataIn m) ∧
    (HostMoves s (.write 0x014#12 4 v) es → step s = .next { s with events := es, reply := .written, len := v })

/-- A read right after an accepted write returns what was written, where the register is readable (R316): the word (R70, R185)
for IV, DATA_IN and LEN, written while idle; bits [2:0] of it (R185) for INT_ENABLE, BUSY or not. -/
def Obligations.ReadReturnsTheWordWritten : Prop :=
  ∀ s off v es, s.events = .bus (.write off 4 v) :: .bus (.read off 4) :: es →
    (s.busy = false → off.toNat % 4 = 0 →
      (off.toNat = 0x014 ∨ (0x180 ≤ off.toNat ∧ off.toNat < 0x190) ∨ (0x1C0 ≤ off.toNat ∧ off.toNat < 0x200)) →
      ∃ t u, step s = .next t ∧ step t = .next u ∧ u.reply = .data v ∧ u.events = es) ∧
    (off.toNat = 0x010 →
      ∃ t u, step s = .next t ∧ step t = .next u ∧ u.reply = .data (0#29 ++ v.extractLsb' 0 3) ∧ u.events = es)

/-- Who changes a pending flag (R34 to R37, R53): a bit falls only by the host's write of 1 to it, a reset or SRESET; DONE rises
only by a completion or a refused CMD write, ERR only where the result code is not 0, WERR only by a write while BUSY. -/
def Obligations.PendingFlagsChangeOnlyAsStated : Prop :=
  ∀ s t, step s = .next t →
    (∀ i, i < 3 → s.intStatus.getLsbD i = true → t.intStatus.getLsbD i = false →
      (∃ v es, HostMoves s (.write 0x00C#12 4 v) es ∧ v.getLsbD i = true) ∨ (∃ es, SresetMoves s es) ∨
        (∃ es, s.events = .hardwareReset :: es)) ∧
    (s.intStatus.getLsbD 0 = false → t.intStatus.getLsbD 0 = true →
      (s.busy = true ∧ t.busy = false ∧ ∃ es, EngineMoves s es) ∨
      (s.busy = false ∧ t.errCode = .illegalCommand ∧ ∃ v es, HostMoves s (.write 0x004#12 4 v) es ∧ validWord v = false)) ∧
    (s.intStatus.getLsbD 1 = false → t.intStatus.getLsbD 1 = true →
      t.errCode ≠ .ok ∧
      ((s.busy = true ∧ t.busy = false ∧ ∃ es, EngineMoves s es) ∨
       (s.busy = false ∧ ∃ v es, HostMoves s (.write 0x004#12 4 v) es ∧ validWord v = false))) ∧
    (s.intStatus.getLsbD 2 = false → t.intStatus.getLsbD 2 = true →
      s.busy = true ∧ t.busy = true ∧ ∃ off v es, HostMoves s (.write off 4 v) es)

/-- R50: irq is 1 exactly while a pending bit is enabled. So (R271) it rises with a completion when DONE is enabled, with an
error when ERR is, and falls in the step that acknowledges every pending bit or disables all three. -/
def Obligations.IrqFollowsPendingAndEnabled : Prop :=
  (∀ s : State, s.irq = true ↔ ∃ i < 3, s.intStatus.getLsbD i = true ∧ s.intEnable.getLsbD i = true) ∧
  (∀ i s t, i ≠ .sreset → exec i s = .next t → s.intEnable.getLsbD 0 = true → t.irq = true) ∧
  (∀ i s t, i ≠ .sreset → exec i s = .next t → t.errCode ≠ .ok → s.intEnable.getLsbD 1 = true → t.irq = true) ∧
  (∀ s v es, HostMoves s (.write 0x00C#12 4 v) es → v.extractLsb' 0 3 = 0b111#3 →
    ∃ t, step s = .next t ∧ t.irq = false) ∧
  (∀ s es, HostMoves s (.write 0x010#12 4 0#32) es → ∃ t, step s = .next t ∧ t.irq = false)

/-! ### Commands -/

/-- R212: every command the engine runs completes, in every state: BUSY falls, DONE is set, ERR is set exactly with a result
code other than 0, and LAST_OP, INT_ENABLE, WERR and PEND stay. With an error nothing else was written but, by DECRYPT,
SCRATCH. -/
def Obligations.EveryCommandCompletes : Prop :=
  ∀ (i : Instr) (s : State), i ≠ .sreset →
    ∃ t, exec i s = .next t ∧ t.busy = false ∧
      t.intStatus = (if t.errCode = .ok then s.intStatus ||| 0b001#3 else s.intStatus ||| 0b011#3) ∧
      t.lastOp = s.lastOp ∧ t.intEnable = s.intEnable ∧ t.pendOp = s.pendOp ∧ t.pendType = s.pendType ∧
      t.events = s.events ∧ t.reply = s.reply ∧
      (t.errCode ≠ .ok →
        t = { s with scratch := t.scratch, errCode := t.errCode, busy := false, intStatus := s.intStatus ||| 0b011#3 } ∧
          (t.scratch = s.scratch ∨ i = .decrypt))

/-- A valid word written to CMD while idle, then the engine's turn (R210, R211): BUSY is 1 between the two, and the second step
runs the command on the state the write left. -/
def Obligations.IssuedCommandRunsAtTheEnginesTurn : Prop :=
  ∀ s v i es, s.events = .bus (.write 0x004#12 4 v) :: .engine :: es → s.busy = false → decode v = .ok i → i ≠ .sreset →
    ∃ t, step s = .next t ∧ t.busy = true ∧ t.lastOp = v.extractLsb' 0 4 ∧ t.errCode = s.errCode ∧
      t.intStatus = s.intStatus ∧ step t = exec i { t with events := es }

/-- R215: NOP is the word 0; it completes with OK in every state and changes nothing but the status. Issued from an idle
state, it holds BUSY at 1 until its completion. -/
def Obligations.NopChangesOnlyTheStatus : Prop :=
  encode .nop = 0x00000000#32 ∧
  (∀ s : State, exec .nop s =
    .next { s with errCode := .ok, busy := false, intStatus := s.intStatus ||| 0b001#3 }) ∧
  ∀ s es, s.events = .bus (.write 0x004#12 4 0x00000000#32) :: .engine :: es → s.busy = false →
    ∃ t, step s = .next t ∧ t.busy = true ∧
      step t = .next { s with
        events := es, reply := .written, lastOp := 0#4, pendOp := 0#4, pendType := 0#3, errCode := .ok,
        intStatus := s.intStatus ||| 0b001#3 }

/-- R221: CONFIGURE, case by case: the type is checked first, then the key lengths; on an error only the status changes; else
the type and copies of the two staged keys are latched and the state is KEYED, and nothing else but the status changes (R306
reads otherwise; log 11). -/
def Obligations.ConfigureCaseByCase : Prop :=
  ∀ (s : State) (t : BitVec 3),
    let ek := (s.len.extractLsb' 16 8).toNat
    let ik := (s.len.extractLsb' 24 8).toNat
    (4 ≤ t.toNat → exec (.configure t) s =
      .next { s with errCode := .unknownType, busy := false, intStatus := s.intStatus ||| 0b011#3 }) ∧
    (t.toNat < 4 → (64 < ek ∨ 64 < ik) → exec (.configure t) s =
      .next { s with errCode := .badKeyLength, busy := false, intStatus := s.intStatus ||| 0b011#3 }) ∧
    (t.toNat < 4 → ek ≤ 64 → ik ≤ 64 → ∃ ke ki, exec (.configure t) s =
      .next { s with
        actType := t, actEncKey := ke, actIntKey := ki, lifecycle := .keyed, errCode := .ok, busy := false,
        intStatus := s.intStatus ||| 0b001#3 } ∧
      ke.length = ek ∧ (∀ k < ek, ke.getD k 0#8 = s.encKeyStage.byte k) ∧
      ki.length = ik ∧ (∀ k < ik, ki.getD k 0#8 = s.intKeyStage.byte k))

/-- DECRYPT of a token whose tag verifies (R230, R147, R149, R150, R48): DATA_OUT gets the ciphertext XORed with the pad and
zeros beyond, OUT_LEN the payload length, SCRATCH the pad, payload and full HMAC, the status OK; nothing else changes. -/
def Obligations.DecryptDeliversThePayload : Prop :=
  ∀ (s : State) (ml n : Nat), s.lifecycle = .keyed → TypeLengths s.actType ml n →
    (s.len.extractLsb' 0 8).toNat = ml →
    let iv := s.dataIn.bytes 0 16
    let pad := hmacSha1 s.actEncKey iv
    let p := (List.range n).map fun k => s.dataIn.byte (16 + k) ^^^ pad.getD k 0#8
    let full := hmacSha1 s.actIntKey (p ++ iv)
    (∀ k < 4, full.getD k 0#8 = s.dataIn.byte (16 + n + k)) →
    ∃ out sc, exec .decrypt s =
      .next { s with
        dataOut := out, outLen := BitVec.ofNat 8 n, scratch := sc, errCode := .ok, busy := false,
        intStatus := s.intStatus ||| 0b001#3 } ∧
      (∀ k, out.byte k = if k < n then s.dataIn.byte (16 + k) ^^^ pad.getD k 0#8 else 0#8) ∧
      (∀ k, sc.byte k = if k < 20 then pad.getD k 0#8 else if k < 36 then p.getD (k - 20) 0#8
        else if k < 56 then full.getD (k - 36) 0#8 else 0#8)

/-- R231, R232: the order of DECRYPT's checks, and that no error changes DATA_OUT or OUT_LEN: not KEYED, then the wrong length,
then a tag that differs, which alone also writes SCRATCH, with the pad, the candidate payload and the full HMAC (R230, R48); each
leaves all else but the status as it was. -/
def Obligations.DecryptErrorsInOrder : Prop :=
  ∀ s : State,
    (s.lifecycle ≠ .keyed → exec .decrypt s =
      .next { s with errCode := .notConfigured, busy := false, intStatus := s.intStatus ||| 0b011#3 }) ∧
    (∀ ml n, s.lifecycle = .keyed → TypeLengths s.actType ml n → (s.len.extractLsb' 0 8).toNat ≠ ml →
      exec .decrypt s =
        .next { s with errCode := .badMessageLength, busy := false, intStatus := s.intStatus ||| 0b011#3 }) ∧
    (∀ ml n, s.lifecycle = .keyed → TypeLengths s.actType ml n → (s.len.extractLsb' 0 8).toNat = ml →
      let iv := s.dataIn.bytes 0 16
      let pad := hmacSha1 s.actEncKey iv
      let p := (List.range n).map fun k => s.dataIn.byte (16 + k) ^^^ pad.getD k 0#8
      let full := hmacSha1 s.actIntKey (p ++ iv)
      (∃ k < 4, full.getD k 0#8 ≠ s.dataIn.byte (16 + n + k)) →
      ∃ sc, exec .decrypt s =
        .next { s with
          scratch := sc, errCode := .signatureCheckFailed, busy := false, intStatus := s.intStatus ||| 0b011#3 } ∧
        (∀ k, sc.byte k = if k < 20 then pad.getD k 0#8 else if k < 36 then p.getD (k - 20) 0#8
          else if k < 56 then full.getD (k - 36) 0#8 else 0#8))

/-- ENCRYPT with the right lengths (R240, R114): DATA_OUT gets the IV, the plaintext XORed with the pad, the first four bytes of
the HMAC over plaintext then IV, and zeros; OUT_LEN the message length; nothing else but SCRATCH and the status changes. -/
def Obligations.EncryptDeliversTheToken : Prop :=
  ∀ (s : State) (ml n : Nat), s.lifecycle = .keyed → TypeLengths s.actType ml n →
    (s.len.extractLsb' 8 8).toNat = 16 → (s.len.extractLsb' 0 8).toNat = n →
    let iv := s.ivBuf.bytes 0 16
    let x := s.dataIn.bytes 0 n
    let pad := hmacSha1 s.actEncKey iv
    let full := hmacSha1 s.actIntKey (x ++ iv)
    ∃ out sc, exec .encrypt s =
      .next { s with
        dataOut := out, outLen := BitVec.ofNat 8 ml, scratch := sc, errCode := .ok, busy := false,
        intStatus := s.intStatus ||| 0b001#3 } ∧
      (∀ k, out.byte k = if k < 16 then s.ivBuf.byte k
        else if k < 16 + n then s.dataIn.byte (k - 16) ^^^ pad.getD (k - 16) 0#8
        else if k < 16 + n + 4 then full.getD (k - (16 + n)) 0#8 else 0#8) ∧
      (∀ k, sc.byte k = if k < 20 then pad.getD k 0#8
        else if k < 20 + n then s.dataIn.byte (k - 20) ^^^ pad.getD (k - 20) 0#8
        else if k < 36 then 0#8 else if k < 56 then full.getD (k - 36) 0#8 else 0#8)

/-- R241: the order of ENCRYPT's checks; on an error only the status changes, so DATA_OUT, OUT_LEN and SCRATCH stay. -/
def Obligations.EncryptErrorsInOrder : Prop :=
  ∀ s : State,
    (s.lifecycle ≠ .keyed → exec .encrypt s =
      .next { s with errCode := .notConfigured, busy := false, intStatus := s.intStatus ||| 0b011#3 }) ∧
    (∀ ml n, s.lifecycle = .keyed → TypeLengths s.actType ml n → (s.len.extractLsb' 8 8).toNat ≠ 16 →
      exec .encrypt s =
        .next { s with errCode := .badInitVectorLength, busy := false, intStatus := s.intStatus ||| 0b011#3 }) ∧
    (∀ ml n, s.lifecycle = .keyed → TypeLengths s.actType ml n → (s.len.extractLsb' 8 8).toNat = 16 →
      (s.len.extractLsb' 0 8).toNat ≠ n →
      exec .encrypt s =
        .next { s with errCode := .badPlainLength, busy := false, intStatus := s.intStatus ||| 0b011#3 })

/-- R245: RELEASE is the word 4; in every state it zeroes SCRATCH, the buffers, LEN, both windows and both keys, and leaves the
state RELEASED with OK; INT_ENABLE, LAST_OP, PEND and the pending ERR and WERR bits stay. -/
def Obligations.ReleaseZeroesAllMaterial : Prop :=
  encode .release = 0x00000004#32 ∧ ∀ s : State, exec .release s =
    .next { s with
      scratch := [], dataOut := [], outLen := 0#8, dataIn := [], ivBuf := [], len := 0#32, encKeyStage := [],
      intKeyStage := [], actEncKey := [], actIntKey := [], actType := 0#3, lifecycle := .released, errCode := .ok,
      busy := false, intStatus := s.intStatus ||| 0b001#3 }

/-- SRESET in every state (R250, R251): every field of the block as reset has it, BUSY or not, so the command in flight is gone
and no DONE is set; the model's own two fields stay. -/
def Obligations.SresetClearsEverything : Prop :=
  ∀ s : State, exec .sreset s = .next { State.reset with events := s.events, reply := s.reply }

/-! ### Whole-machine results -/

/-- R156: ENCRYPT then DECRYPT of its token under the same configuration gives the plaintext back with OK, for every type, key,
IV and plaintext; and ENCRYPT of the same inputs gives the same token. -/
def Obligations.RoundTripAndDeterminism : Prop :=
  ∀ (s : State) (ml n : Nat), s.lifecycle = .keyed → TypeLengths s.actType ml n →
    (s.len.extractLsb' 8 8).toNat = 16 → (s.len.extractLsb' 0 8).toNat = n →
    ∃ t, exec .encrypt s = .next t ∧ t.errCode = .ok ∧ t.outLen.toNat = ml ∧
      (∀ u : State, u.lifecycle = .keyed → u.actType = s.actType → u.actEncKey = s.actEncKey →
        u.actIntKey = s.actIntKey → (u.len.extractLsb' 0 8).toNat = ml →
        (∀ k < ml, u.dataIn.byte k = t.dataOut.byte k) →
        ∃ v, exec .decrypt u = .next v ∧ v.errCode = .ok ∧ v.outLen.toNat = n ∧
          ∀ k < n, v.dataOut.byte k = s.dataIn.byte k) ∧
      (∀ u v : State, u.lifecycle = .keyed → u.actType = s.actType → u.actEncKey = s.actEncKey →
        u.actIntKey = s.actIntKey → u.len = s.len → (∀ k < 16, u.ivBuf.byte k = s.ivBuf.byte k) →
        (∀ k < n, u.dataIn.byte k = s.dataIn.byte k) → exec .encrypt u = .next v →
        v.outLen = t.outLen ∧ ∀ k, v.dataOut.byte k = t.dataOut.byte k)

/-- R155 (a): a token that DECRYPT accepts, with any bit of its tag changed and the rest kept, is refused with
SignatureCheckFailed, whatever the other states' outputs: DATA_OUT and OUT_LEN stay. -/
def Obligations.TamperedTagIsDetected : Prop :=
  ∀ (s t u : State) (ml n : Nat), TypeLengths s.actType ml n → exec .decrypt s = .next t → t.errCode = .ok →
    u.lifecycle = s.lifecycle → u.actType = s.actType → u.actEncKey = s.actEncKey → u.actIntKey = s.actIntKey →
    u.len.extractLsb' 0 8 = s.len.extractLsb' 0 8 → (∀ k < 16 + n, u.dataIn.byte k = s.dataIn.byte k) →
    (∃ k < 4, u.dataIn.byte (16 + n + k) ≠ s.dataIn.byte (16 + n + k)) →
    ∃ v, exec .decrypt u = .next v ∧ v.errCode = .signatureCheckFailed ∧ v.dataOut = u.dataOut ∧ v.outLen = u.outLen

/-- R233 (a): the tag does not bind the type: configured for AppIdentifier or for Price, DECRYPT does the same with the same
input, so a Price token opens under AppIdentifier. -/
def Obligations.AppIdentifierAndPriceDecryptAlike : Prop :=
  ∀ s t : State, s.actType = 1#3 → exec .decrypt s = .next t →
    exec .decrypt { s with actType := 2#3 } = .next { t with actType := 2#3 }

/-- The invariants hold at reset, whatever inputs are to come. -/
def Obligations.InvariantsAtReset : Prop :=
  ∀ es, BlockInv { State.reset with events := es }

/-- Every step keeps the invariants, from every state that has them. -/
def Obligations.EveryStepKeepsTheInvariants : Prop :=
  ∀ s t, BlockInv s → step s = .next t → BlockInv t

/-- R52: the invariants (a) to (g) in every reachable state, as the host could read them. -/
def Obligations.InvariantsOfEveryReachableState : Prop :=
  ∀ s, Reachable s →
    (s.statusWord.getLsbD 1 = true ↔ s.statusWord.extractLsb' 2 2 = 0b01#2) ∧
    (s.lifecycle = .keyed → s.actType ∈ [0b000#3, 0b001#3, 0b010#3, 0b011#3]) ∧
    (s.lifecycle ≠ .keyed → s.actType = 0#3 ∧ s.actEncKey = [] ∧ s.actIntKey = []) ∧
    s.lifecycle.code ≠ 0b11#2 ∧
    s.outLen.toNat ∈ [0, 8, 12, 16, 28, 32, 36] ∧
    (∀ k, s.outLen.toNat ≤ k → k < 64 → s.dataOut.byte k = 0#8) ∧
    (∀ k, 56 ≤ k → k < 64 → s.scratch.byte k = 0#8)

/-- No run from reset ever stops: every step of a reachable state answers a next state (R214, R264). -/
def Obligations.ReachableStatesNeverStop : Prop :=
  ∀ s, Reachable s → ∃ t, step s = .next t

/-- From a state with the invariants, once the inputs to come are used up one more step leaves the block idle: no command
hangs (R211, R214). That the engine moves when no input is left is the model's reading of weak fairness (log 1). -/
def Obligations.TheBlockComesToRest : Prop :=
  ∀ s : State, BlockInv s → ∃ t : State,
    Host.Core.run Sys2Proof.core (s.events.length + 1) s = .next t ∧ t.busy = false ∧ t.events = []

/-- Who changes STATE (R28, R51): a successful CONFIGURE to KEYED, RELEASE to RELEASED, a reset or SRESET to UNCONFIGURED, and
nothing else. -/
def Obligations.LifecycleChangesOnlyByCommandsAndReset : Prop :=
  ∀ s t, step s = .next t → t.lifecycle ≠ s.lifecycle →
    (t.lifecycle = .keyed ∧ t.errCode = .ok ∧ s.busy = true ∧ (∃ es, EngineMoves s es) ∧
      ∃ ty : BitVec 3, ty.toNat < 4 ∧ decode (commandWord s.pendOp s.pendType) = .ok (.configure ty) ∧ t.actType = ty) ∨
    (t.lifecycle = .released ∧ t.errCode = .ok ∧ s.busy = true ∧ (∃ es, EngineMoves s es) ∧
      decode (commandWord s.pendOp s.pendType) = .ok .release) ∨
    (t.lifecycle = .unconfigured ∧ ((∃ es, SresetMoves s es) ∨ ∃ es, s.events = .hardwareReset :: es))

/-- R88, R189: while a command is in flight and stays in flight, no step changes an input, an active key, an output, a result or
the latch: it completes on the inputs it was issued on. -/
def Obligations.InputsAreFrozenInFlight : Prop :=
  ∀ s t, step s = .next t → s.busy = true → t.busy = true →
    t = { s with intStatus := t.intStatus, intEnable := t.intEnable, events := t.events, reply := t.reply }

/-- R280, R184: two states that differ only in the staging windows, the active keys and SCRATCH read alike at every register,
drive the same irq, and stay so through every step but a completion of DECRYPT or ENCRYPT. -/
def Obligations.SecretsStayHidden : Prop :=
  ∀ s u, SameButSecrets s u →
    (∀ r, regRead r s = regRead r u) ∧ s.irq = u.irq ∧
    (((∃ es, EngineMoves s es) → s.busy = true → s.pendingCommand ≠ some .decrypt ∧ s.pendingCommand ≠ some .encrypt) →
      ∀ t t', step s = .next t → step u = .next t' → SameButSecrets t t')

/-- R312, R46: the staging windows reach nothing until a CONFIGURE: two states that differ in them alone differ in them alone
after every other step, completions of DECRYPT and ENCRYPT among them. -/
def Obligations.StagedKeysWaitForConfigure : Prop :=
  ∀ s u, SameButStaging s u →
    ((∃ es, EngineMoves s es) → s.busy = true → ∀ ty, s.pendingCommand ≠ some (.configure ty)) →
    ∀ t t', step s = .next t → step u = .next t' → SameButStaging t t'

/-! ### Primitives -/

/-- R132: Pad appends 0x80, the least number of zeros that fills whole blocks, and the bit length as 64 bits. -/
def Obligations.PaddingFillsWholeBlocks : Prop :=
  ∀ m : List Byte, ∃ z, sha1Pad m = m ++ [0x80#8] ++ zeros z ++ be64 (BitVec.ofNat 64 (8 * m.length)) ∧
    (m.length + 1 + z + 8) % 64 = 0 ∧ ∀ y < z, (m.length + 1 + y + 8) % 64 ≠ 0

/-- R139: the pad HMAC and the tag HMAC take two compressions inside and two outside, for every type. -/
def Obligations.EightCompressionsPerToken : Prop :=
  ∀ k iv p : List Byte, iv.length = 16 → p.length ∈ [16, 8, 12] →
    sha1BlockCount (innerKey k ++ iv) = 2 ∧ sha1BlockCount (outerKey k ++ sha1 (innerKey k ++ iv)) = 2 ∧
    sha1BlockCount (innerKey k ++ (p ++ iv)) = 2 ∧ sha1BlockCount (outerKey k ++ sha1 (innerKey k ++ (p ++ iv))) = 2

/-- R138: HMAC computed from the two precomputed chaining values, without the key, is HMAC. -/
def Obligations.HmacFromItsKeySchedule : Prop :=
  ∀ k m : List Byte, hmacFromSchedule (innerSchedule k) (outerSchedule k) m = hmacSha1 k m

/-- R137: for a key over 64 bytes, HMAC under the key is HMAC under its SHA-1 digest. -/
def Obligations.LongKeyActsAsItsDigest : Prop :=
  ∀ k m : List Byte, 64 < k.length → hmacSha1 k m = hmacSha1 (sha1 k) m

/-- R153: on two 4-byte strings the comparator gives 1 exactly when all four bytes are equal. -/
def Obligations.ComparatorIsEquality : Prop :=
  ∀ a b : List Byte, a.length = 4 → b.length = 4 → (ctEqual4 a b = true ↔ a = b)

/-- R149: the XOR transform byte by byte, and that it is its own inverse. -/
def Obligations.XorTransformIsItsOwnInverse : Prop :=
  ∀ x pad : List Byte, x.length ≤ pad.length →
    (xorPad x pad).length = x.length ∧
    (∀ i < x.length, (xorPad x pad).getD i 0#8 = x.getD i 0#8 ^^^ pad.getD i 0#8) ∧
    xorPad (xorPad x pad) pad = x

/-- R142: the four rows of the Format Table and no other, with R143's two facts of every row. That DECRYPT and ENCRYPT complete
with UnknownType in a KEYED state whose type has no row is the model's reading of that lookup (log 10): no run reaches such a
state (R144). -/
def Obligations.FormatTableRows : Prop :=
  formatRow 0b000#3 = some ⟨36, 16⟩ ∧ formatRow 0b001#3 = some ⟨28, 8⟩ ∧ formatRow 0b010#3 = some ⟨28, 8⟩ ∧
  formatRow 0b011#3 = some ⟨32, 12⟩ ∧ (∀ t : BitVec 3, 4 ≤ t.toNat → formatRow t = none) ∧
  (∀ (s : State) (i : Instr), i = .decrypt ∨ i = .encrypt → s.lifecycle = .keyed → 4 ≤ s.actType.toNat →
    exec i s = .next { s with errCode := .unknownType, busy := false, intStatus := s.intStatus ||| 0b011#3 }) ∧
  (∀ t f, formatRow t = some f → f.messageLen = 16 + f.payloadLen + 4 ∧ f.payloadLen ≤ 20)

/-! ### Platform -/

/-- R190, R71: an access by host address is the access by offset of the block whose window holds the address; an address
outside the window does not reach the block; the window's base is a multiple of 4096. -/
def Obligations.HostAddressReachesItsOffset : Prop :=
  ∀ (k : Nat) (s : State),
    Config.baseAddr k % 4096 = 0 ∧
    (∀ (off : Offset) (size : Nat),
      memRead (Config.baseAddr k) (Config.baseAddr k + off.toNat) size s = hostAccess (.read off size) s ∧
      ∀ v : Word, memWrite (Config.baseAddr k) (Config.baseAddr k + off.toNat) size v s = hostAccess (.write off size v) s) ∧
    (∀ addr size : Nat, (addr < Config.baseAddr k ∨ Config.baseAddr k + 4096 ≤ addr) →
      memRead (Config.baseAddr k) addr size s = s ∧ ∀ v : Word, memWrite (Config.baseAddr k) addr size v s = s)

/-- R289: a step of one block is that block's own step, and changes no other block of the platform. -/
def Obligations.InstancesShareNothing : Prop :=
  ∀ (k : Nat) (p q : Platform), Platform.stepAt k p = .next q →
    q.length = p.length ∧ (∀ j, j ≠ k → q[j]? = p[j]?) ∧
    ∀ s, p[k]? = some s → ∃ t, step s = .next t ∧ q[k]? = some t

/-- R275: the time of a command is the same in two states with the same type, STATE and declared lengths, whatever keys, IV,
input, output and scratch hold. The model states what LATENCY may depend on and gives it no value (log 7). -/
def Obligations.LatencyDependsOnPublicStateOnly : Prop :=
  ∀ (s u : State) (i : Instr), s.actType = u.actType → s.lifecycle = u.lifecycle → s.len = u.len →
    s.latency i = u.latency i

/-! ### Host programs -/

/-- "run" (R119): a host that writes a command to an idle block, WAITs and reads STATUS ends with the command run, however often
its WAIT reads STATUS before the engine moves, and has read the STATUS word that the command left. Sessions of a host with its
block are the model's own (log 1, log 12). -/
def Obligations.RunWaitsForTheCompletion : Prop :=
  ∀ (s : State) (i : Instr) (n : Nat), s.busy = false → s.events = [] → i ≠ .sreset →
    ∃ t, exec i { s with lastOp := opcode i, pendOp := opcode i, pendType := typeCode i, busy := true } = .next t ∧
      Session.run ([.host] ++ List.replicate n .host ++ [.engine, .host, .host]) (Session.start s (runCommand i)) =
        .next { block := { t with reply := .data t.statusWord }, host := { code := [], read := [t.statusWord] } }

/-- The read of a result (R119): after a STATUS word whose ERR_CODE is not 0 the host reads nothing of DATA_OUT; after one whose
ERR_CODE is 0 it reads the words of DATA_OUT[0:OUT_LEN], in order, each once. That it checks ERR_CODE
and not LAST_OP (R290) is the model's choice (log 12). -/
def Obligations.ResultIsReadOnlyOnSuccess : Prop :=
  ∀ (h : HostRun) (status : Word), h.read.getLast? = some status →
    (status.extractLsb' 8 4 ≠ 0#4 → HostRun.access? { h with code := [.readOut] } = none) ∧
    (status.extractLsb' 8 4 = 0#4 → (status.extractLsb' 16 8).toNat ≤ 64 →
      (HostRun.ready { h with code := [.readOut] }).code.length = ((status.extractLsb' 16 8).toNat + 3) / 4 ∧
      ∀ w, 4 * w < (status.extractLsb' 16 8).toNat →
        (HostRun.ready { h with code := [.readOut] }).code[w]? = some (.rd (BitVec.ofNat 12 (0x200 + 4 * w))))

/-- `acquire` from every idle state, whatever STATE, with keys of any length (R305 step 4, R306, R119): the same sequence latches
the same type and keys, and leaves the same LEN, STATE, result code, LAST_OP and PEND, however often its WAIT reads. A key over 64
bytes is written as its SHA-1 digest, and every HMAC under the latched key is the HMAC under the key given (R137). What is named
below is what it sets; what is not stays as it was, DATA_OUT, OUT_LEN and SCRATCH of a KEYED start among it (R221; R306 reads
otherwise, log 11). Sessions are the model's own (log 1, log 12). -/
def Obligations.AcquireFromEveryState : Prop :=
  let Written (k : List Byte) : List Byte := if k.length ≤ 64 then k else sha1 k
  (∀ (s : State) (t : BitVec 3) (ek ik : List Byte) (n : Nat), s.busy = false → s.events = [] → t.toNat < 4 →
    ∃ (u : State) (m₁ m₂ : Memory),
      Session.run (List.replicate
          ((load .encKey (Written ek) ++ load .intKey (Written ik)).length + 2 + n) .host ++ [.engine, .host, .host])
        (Session.start s (acquireProgram t ek ik)) = .next ⟨u, ⟨[], [u.statusWord]⟩⟩ ∧
      u = { s with
        encKeyStage := m₁, intKeyStage := m₂,
        len := BitVec.ofNat 8 (Written ik).length ++ BitVec.ofNat 8 (Written ek).length ++ 0#8 ++ 0#8,
        lifecycle := .keyed, actType := t, actEncKey := Written ek, actIntKey := Written ik, errCode := .ok,
        lastOp := 0x1#4, pendOp := 0x1#4, pendType := t, intStatus := s.intStatus ||| 0b001#3,
        reply := .data u.statusWord } ∧
      (∀ k < (Written ek).length, m₁.byte k = (Written ek).getD k 0#8) ∧
      (∀ k < (Written ik).length, m₂.byte k = (Written ik).getD k 0#8)) ∧
  ∀ k m : List Byte, hmacSha1 (Written k) m = hmacSha1 k m

/-- A block that is not KEYED holds no output (R44, R245, R51): no result, no candidate payload, no pad is left in it. So (R306)
an acquire after reset and one after RELEASE leave the same DATA_OUT, OUT_LEN and SCRATCH. It holds at reset, every step keeps
it, and it holds in every reachable state. -/
def Obligations.UnkeyedBlocksHoldNoOutput : Prop :=
  let NoOutput (s : State) : Prop := s.lifecycle ≠ .keyed → s.dataOut = [] ∧ s.outLen = 0#8 ∧ s.scratch = []
  (∀ es, NoOutput { State.reset with events := es }) ∧
  (∀ s t, NoOutput s → step s = .next t → NoOutput t) ∧
  ∀ s, Reachable s → NoOutput s

/-- R306 with R221 and R44 (log 11): an acquire forgets the case it starts from. From ANY two idle starts the two ends differ in
nothing but INT_STATUS, INT_ENABLE and what R221 and R44 say CONFIGURE does not touch (IV, DATA_IN, DATA_OUT, OUT_LEN, SCRATCH),
each as its own start had it, and in staging bytes beyond the keys written, which CONFIGURE ignores (R222). Where the starts agree
on those, the ends are the same apart from INT_STATUS and INT_ENABLE, and the host reads the same. Sessions are the model's own
(log 1, log 12). -/
def Obligations.AcquireForgetsTheCaseItStartsFrom : Prop :=
  ∀ (s v : State) (t : BitVec 3) (ek ik : List Byte) (n : Nat), t.toNat < 4 →
    s.busy = false → s.events = [] → v.busy = false → v.events = [] →
    let schedule : List Turn := List.replicate ((acquireProgram t ek ik).length - 2 + n) .host ++ [.engine, .host, .host]
    (∃ (u w : State) (m₁ m₂ : Memory),
      Session.run schedule (Session.start s (acquireProgram t ek ik)) = .next ⟨u, ⟨[], [u.statusWord]⟩⟩ ∧
      Session.run schedule (Session.start v (acquireProgram t ek ik)) = .next ⟨w, ⟨[], [w.statusWord]⟩⟩ ∧
      w = { u with
        intStatus := v.intStatus ||| 0b001#3, intEnable := v.intEnable, ivBuf := v.ivBuf, dataIn := v.dataIn,
        dataOut := v.dataOut, outLen := v.outLen, scratch := v.scratch, encKeyStage := m₁, intKeyStage := m₂,
        reply := .data w.statusWord } ∧
      (∀ k < (hostKey ek).length, m₁.byte k = u.encKeyStage.byte k) ∧
      (∀ k < (hostKey ik).length, m₂.byte k = u.intKeyStage.byte k)) ∧
    (s.encKeyStage = v.encKeyStage → s.intKeyStage = v.intKeyStage → s.ivBuf = v.ivBuf → s.dataIn = v.dataIn →
      s.dataOut = v.dataOut → s.outLen = v.outLen → s.scratch = v.scratch →
      ∃ (u : State) (h : HostRun),
        Session.run schedule (Session.start s (acquireProgram t ek ik)) = .next ⟨u, h⟩ ∧
        Session.run schedule (Session.start v (acquireProgram t ek ik)) =
          .next ⟨{ u with intStatus := v.intStatus ||| 0b001#3, intEnable := v.intEnable }, h⟩)

/-- R311, R306: what an acquire leaves of its start reaches no result. Two states with the same type, keys, STATE and LEN and the
same input bytes complete a DECRYPT or an ENCRYPT with the same code, whatever earlier output, scratch, staging and input tails
they hold; where the code is OK, they hold the same DATA_OUT, OUT_LEN and SCRATCH afterwards. -/
def Obligations.EarlierOutputReachesNoResult : Prop :=
  ∀ (s v : State) (i : Instr), i = .decrypt ∨ i = .encrypt →
    s.lifecycle = v.lifecycle → s.actType = v.actType → s.actEncKey = v.actEncKey → s.actIntKey = v.actIntKey →
    s.len = v.len → (∀ k < s.inLen.toNat, s.dataIn.byte k = v.dataIn.byte k) →
    (i = .encrypt → ∀ k < 16, s.ivBuf.byte k = v.ivBuf.byte k) →
    ∃ t t' : State, exec i s = .next t ∧ exec i v = .next t' ∧ t.errCode = t'.errCode ∧
      (t.errCode = .ok → t.dataOut = t'.dataOut ∧ t.outLen = t'.outLen ∧ t.scratch = t'.scratch)
end

