-- ==== Sys2Proof/Laws/Memory.lean ====
section
/-! SUPPORT. The laws of byte strings and byte arrays: read after write, frames, lengths, and the canonical form. -/

namespace Sys2Proof.Machine

/-! ### Byte strings -/

@[simp] theorem be32_length (w : Word) : (be32 w).length = 4 := rfl

@[simp] theorem be64_length (v : BitVec 64) : (be64 v).length = 8 := rfl

@[simp] theorem zeros_length (n : Nat) : (zeros n).length = n := by simp [zeros]

@[simp] theorem zeros_getD (n i : Nat) : (zeros n).getD i 0#8 = 0#8 := by
  by_cases h : i < n <;> simp [zeros, List.getD, h]

theorem getD_append_zeros (bs : List Byte) (n i : Nat) : (bs ++ zeros n).getD i 0#8 = bs.getD i 0#8 := by
  by_cases h : i < bs.length
  · rw [List.getD_append _ _ _ _ h]
  · rw [List.getD_append_right _ _ _ _ (by omega), zeros_getD, List.getD_eq_default _ _ (by omega)]

@[simp] theorem slice_length (s : List Byte) (i j : Nat) : (slice s i j).length = min (j - i) (s.length - i) := by
  simp [slice]

theorem slice_getD (s : List Byte) (i j k : Nat) (h : k < j - i) : (slice s i j).getD k 0#8 = s.getD (i + k) 0#8 := by
  simp [slice, List.getD, h]

/-! ### One byte -/

@[simp] theorem byte_nil (k : Nat) : Memory.byte [] k = 0#8 := rfl

theorem byte_remove (m : Memory) (k i : Nat) : (m.remove k).byte i = if i = k then 0#8 else m.byte i := by
  induction m with
  | nil => simp [Memory.remove]
  | cons c m ih =>
    simp only [Memory.remove, Memory.byte]
    split <;> simp_all [Memory.byte] <;> grind

theorem byte_insert (m : Memory) (k i : Nat) (v : Byte) (h : m.byte k = 0#8 ∧ m.remove k = m) :
    (m.insert k v).byte i = if i = k then v else m.byte i := by
  obtain ⟨-, h⟩ := h
  induction m with
  | nil => simp [Memory.insert, Memory.byte, eq_comm]
  | cons c m ih =>
    have hc : c.1 ≠ k := by
      intro hc
      have hlen : ∀ m : Memory, (m.remove k).length ≤ m.length := by
        intro m
        induction m with
        | nil => simp [Memory.remove]
        | cons d m ih => simp only [Memory.remove]; split <;> simp <;> omega
      have := hlen m
      simp only [Memory.remove, hc, if_true] at h
      rw [h] at this
      simp at this
    have hm : Memory.remove m k = m := by simpa [Memory.remove, hc] using h
    have := ih hm
    simp only [Memory.insert]
    split <;> simp_all [Memory.byte] <;> grind

theorem remove_remove (m : Memory) (k : Nat) : (m.remove k).remove k = m.remove k := by
  induction m with
  | nil => rfl
  | cons c m ih => simp only [Memory.remove]; split <;> simp_all [Memory.remove]

/-- All a byte write does to reads: the byte itself, and nothing else. -/
theorem byte_setByte (m : Memory) (k i : Nat) (v : Byte) : (m.setByte k v).byte i = if i = k then v else m.byte i := by
  unfold Memory.setByte
  split
  · simp_all [byte_remove]
  · rw [byte_insert _ _ _ _ ⟨by simp [byte_remove], remove_remove m k⟩, byte_remove]
    split <;> simp_all

/-- All a string write does to reads: the string's bytes in their places, and nothing else. -/
theorem byte_setBytes (bs : List Byte) (m : Memory) (k i : Nat) :
    (m.setBytes k bs).byte i = if k ≤ i ∧ i < k + bs.length then bs.getD (i - k) 0#8 else m.byte i := by
  induction bs generalizing m k with
  | nil => simp [Memory.setBytes, show ¬(k ≤ i ∧ i < k) by omega]
  | cons b bs ih =>
    rw [Memory.setBytes, ih, byte_setByte]
    by_cases h : i = k
    · subst h; simp
    · by_cases h1 : k + 1 ≤ i ∧ i < k + 1 + bs.length
      · have h2 : i - k = (i - (k + 1)) + 1 := by omega
        simp only [h1, and_self, if_true, List.length_cons]
        rw [if_pos (by omega), h2]; simp
      · rw [if_neg h1, if_neg h, if_neg (by simp; omega)]

/-- Reading an array made from a string gives the string, and 0 beyond it. -/
@[simp] theorem byte_ofBytes (bs : List Byte) (i : Nat) : (Memory.ofBytes bs).byte i = bs.getD i 0#8 := by
  rw [Memory.ofBytes, byte_setBytes]
  by_cases h : i < bs.length
  · simp [h]
  · rw [if_neg (by omega), byte_nil, List.getD_eq_default _ _ (by omega)]

/-! ### Strings and words -/

@[simp] theorem bytes_length (m : Memory) (k n : Nat) : (m.bytes k n).length = n := by
  induction n generalizing k with
  | zero => rfl
  | succ n ih => simp [Memory.bytes, ih]

theorem bytes_getD (m : Memory) (k n i : Nat) (h : i < n) : (m.bytes k n).getD i 0#8 = m.byte (k + i) := by
  induction n generalizing k i with
  | zero => omega
  | succ n ih =>
    cases i with
    | zero => simp [Memory.bytes]
    | succ i =>
      have := ih (k + 1) i (by omega)
      simp only [Memory.bytes, List.getD_cons_succ, this]
      congr 1; omega

/-- Two arrays that agree on a range give the same string for it. -/
theorem bytes_congr (m m' : Memory) (k n : Nat) (h : ∀ i, i < n → m.byte (k + i) = m'.byte (k + i)) :
    m.bytes k n = m'.bytes k n := by
  induction n generalizing k with
  | zero => rfl
  | succ n ih =>
    simp only [Memory.bytes]
    rw [show m.byte k = m'.byte k from h 0 (by omega)]
    rw [ih (k + 1) fun i hi => by have := h (i + 1) (by omega); rwa [show k + 1 + i = k + (i + 1) by omega]]

/-- The big-endian word of the four bytes of a word is the word (R70). -/
theorem beWord_be32 (w : Word) : beWord (w.extractLsb' 24 8) (w.extractLsb' 16 8) (w.extractLsb' 8 8) (w.extractLsb' 0 8) = w := by
  apply BitVec.eq_of_getLsbD_eq
  intro i hi
  simp only [beWord, BitVec.getLsbD_append, BitVec.getLsbD_extractLsb']
  grind

/-- A word write changes its four bytes and no other. -/
theorem byte_setWord (m : Memory) (k i : Nat) (v : Word) :
    (m.setWord k v).byte i = if k ≤ i ∧ i < k + 4 then (be32 v).getD (i - k) 0#8 else m.byte i := by
  rw [Memory.setWord, byte_setBytes, be32_length]

/-! ### The canonical form -/

theorem wfFrom_mono (size : Nat) (m : Memory) (lo lo' : Nat) (h : lo' ≤ lo) (hm : m.wfFrom size lo = true) :
    m.wfFrom size lo' = true := by
  cases m with
  | nil => rfl
  | cons c m =>
    simp only [Memory.wfFrom, Bool.and_eq_true, decide_eq_true_eq] at *
    exact ⟨⟨⟨by omega, hm.1.1.2⟩, hm.1.2⟩, hm.2⟩

theorem wfFrom_remove (size : Nat) (m : Memory) (lo k : Nat) (hm : m.wfFrom size lo = true) :
    (m.remove k).wfFrom size lo = true := by
  induction m generalizing lo with
  | nil => rfl
  | cons c m ih =>
    simp only [Memory.wfFrom, Bool.and_eq_true, decide_eq_true_eq] at hm
    obtain ⟨⟨⟨h1, h2⟩, h3⟩, h4⟩ := hm
    simp only [Memory.remove]
    split
    · exact wfFrom_mono _ _ _ _ (by omega) (ih _ h4)
    · simp only [Memory.wfFrom, Bool.and_eq_true, decide_eq_true_eq]
      exact ⟨⟨⟨h1, h2⟩, h3⟩, ih _ h4⟩

theorem wfFrom_insert (size : Nat) (m : Memory) (lo k : Nat) (v : Byte) (hm : m.wfFrom size lo = true)
    (hr : m.remove k = m) (hk : lo ≤ k) (hs : k < size) (hv : v ≠ 0#8) : (m.insert k v).wfFrom size lo = true := by
  induction m generalizing lo with
  | nil => simp [Memory.insert, Memory.wfFrom, hk, hs, hv]
  | cons c m ih =>
    simp only [Memory.wfFrom, Bool.and_eq_true, decide_eq_true_eq] at hm
    obtain ⟨⟨⟨h1, h2⟩, h3⟩, h4⟩ := hm
    simp only [Memory.insert]
    split
    · simp only [Memory.wfFrom, Bool.and_eq_true, decide_eq_true_eq]
      exact ⟨⟨⟨hk, hs⟩, hv⟩, ⟨⟨by omega, h2⟩, h3⟩, h4⟩
    · have hc : c.1 ≠ k := by
        intro hc
        have hb := byte_remove (c :: m) k k
        rw [hr] at hb
        simp [Memory.byte, hc] at hb
        exact h3 hb
      have hm' : Memory.remove m k = m := by simpa [Memory.remove, hc] using hr
      simp only [Memory.wfFrom, Bool.and_eq_true, decide_eq_true_eq]
      exact ⟨⟨⟨h1, h2⟩, h3⟩, ih _ h4 hm' (by omega)⟩

/-- A byte write inside the array keeps the canonical form. -/
theorem wf_setByte (size : Nat) (m : Memory) (k : Nat) (v : Byte) (hm : m.wf size = true) (hk : k < size) :
    (m.setByte k v).wf size = true := by
  unfold Memory.setByte Memory.wf at *
  split
  · exact wfFrom_remove _ _ _ _ hm
  · exact wfFrom_insert _ _ _ _ _ (wfFrom_remove _ _ _ _ hm) (remove_remove _ _) (by omega) hk ‹_›

/-- A string write inside the array keeps the canonical form. -/
theorem wf_setBytes (size : Nat) (bs : List Byte) (m : Memory) (k : Nat) (hm : m.wf size = true)
    (hk : k + bs.length ≤ size) : (m.setBytes k bs).wf size = true := by
  induction bs generalizing m k with
  | nil => exact hm
  | cons b bs ih =>
    simp only [List.length_cons] at hk
    exact ih _ _ (wf_setByte _ _ _ _ hm (by omega)) (by omega)

/-- A word write inside the array keeps the canonical form. -/
theorem wf_setWord (size : Nat) (m : Memory) (k : Nat) (v : Word) (hm : m.wf size = true) (hk : k + 4 ≤ size) :
    (m.setWord k v).wf size = true := wf_setBytes _ _ _ _ hm (by simpa using hk)

/-- The empty array is canonical; it is every buffer's reset content. -/
@[simp] theorem wf_nil (size : Nat) : Memory.wf size [] = true := rfl

/-- An array made from a string that fits is canonical. -/
theorem wf_ofBytes (size : Nat) (bs : List Byte) (h : bs.length ≤ size) : (Memory.ofBytes bs).wf size = true :=
  wf_setBytes _ _ _ _ (wf_nil size) (by omega)

/-- A canonical array reads 0 at and beyond its size. -/
theorem byte_of_wf (size : Nat) (m : Memory) (k : Nat) (hm : m.wf size = true) (hk : size ≤ k) : m.byte k = 0#8 := by
  have main : ∀ (m : Memory) (lo : Nat), m.wfFrom size lo = true → m.byte k = 0#8 := by
    intro m
    induction m with
    | nil => intros; rfl
    | cons c m ih =>
      intro lo h
      simp only [Memory.wfFrom, Bool.and_eq_true, decide_eq_true_eq] at h
      rw [Memory.byte, if_neg (by omega)]
      exact ih _ h.2
  exact main m 0 hm

theorem byte_lt_of_wfFrom (size : Nat) (m : Memory) (lo k : Nat) (hm : m.wfFrom size lo = true) (hk : k < lo) :
    m.byte k = 0#8 := by
  induction m generalizing lo with
  | nil => rfl
  | cons c m ih =>
    simp only [Memory.wfFrom, Bool.and_eq_true, decide_eq_true_eq] at hm
    rw [Memory.byte, if_neg (by omega)]
    exact ih _ hm.2 (by omega)

/-- Canonical arrays with equal contents are equal data. -/
theorem eq_of_bytes_eq (size : Nat) (m m' : Memory) (hm : m.wf size = true) (hm' : m'.wf size = true)
    (h : ∀ k, m.byte k = m'.byte k) : m = m' := by
  have main : ∀ (m m' : Memory) (lo lo' : Nat), m.wfFrom size lo = true → m'.wfFrom size lo' = true →
      (∀ k, m.byte k = m'.byte k) → m = m' := by
    intro m
    induction m with
    | nil =>
      intro m' lo lo' _ h' h
      cases m' with
      | nil => rfl
      | cons d m' =>
        simp only [Memory.wfFrom, Bool.and_eq_true, decide_eq_true_eq] at h'
        have := h d.1
        simp [Memory.byte] at this
        exact absurd this.symm h'.1.2
    | cons c m ih =>
      intro m' lo lo' h1 h2 h
      cases m' with
      | nil =>
        simp only [Memory.wfFrom, Bool.and_eq_true, decide_eq_true_eq] at h1
        have := h c.1
        simp [Memory.byte] at this
        exact absurd this h1.1.2
      | cons d m' =>
        simp only [Memory.wfFrom, Bool.and_eq_true, decide_eq_true_eq] at h1 h2
        obtain ⟨⟨-, hc⟩, hwc⟩ := h1
        obtain ⟨⟨-, hd⟩, hwd⟩ := h2
        have hcd : c.1 = d.1 := by
          rcases Nat.lt_trichotomy c.1 d.1 with hlt | heq | hgt
          · have := h c.1
            simp only [Memory.byte, if_true] at this
            rw [if_neg (by omega), byte_lt_of_wfFrom _ _ _ _ hwd (by omega)] at this
            exact absurd this hc
          · exact heq
          · have := h d.1
            simp only [Memory.byte, if_true] at this
            rw [if_neg (by omega), byte_lt_of_wfFrom _ _ _ _ hwc (by omega)] at this
            exact absurd this.symm hd
        have hv : c.2 = d.2 := by simpa [Memory.byte, hcd] using h c.1
        have : c = d := Prod.ext hcd hv
        subst this
        congr 1
        refine ih m' _ _ hwc hwd fun k => ?_
        by_cases hk : c.1 = k
        · rw [byte_lt_of_wfFrom _ _ _ _ hwc (by omega), byte_lt_of_wfFrom _ _ _ _ hwd (by omega)]
        · simpa [Memory.byte, hk] using h k
  exact main m m' 0 0 hm hm' h

end Sys2Proof.Machine
end

