-- ==== Sys2Proof/Laws/State.lean ====
section
/-! SUPPORT. One lemma per field per shared update, each true by rfl, so that no proof unfolds a record update. -/

namespace Sys2Proof.Machine

@[simp] theorem complete_lifecycle (e : ResultCode) (s : State) : (complete e s).lifecycle = s.lifecycle := rfl
@[simp] theorem complete_busy (e : ResultCode) (s : State) : (complete e s).busy = false := rfl
@[simp] theorem complete_actType (e : ResultCode) (s : State) : (complete e s).actType = s.actType := rfl
@[simp] theorem complete_actEncKey (e : ResultCode) (s : State) : (complete e s).actEncKey = s.actEncKey := rfl
@[simp] theorem complete_actIntKey (e : ResultCode) (s : State) : (complete e s).actIntKey = s.actIntKey := rfl
@[simp] theorem complete_errCode (e : ResultCode) (s : State) : (complete e s).errCode = e := rfl
@[simp] theorem complete_lastOp (e : ResultCode) (s : State) : (complete e s).lastOp = s.lastOp := rfl
@[simp] theorem complete_outLen (e : ResultCode) (s : State) : (complete e s).outLen = s.outLen := rfl
@[simp] theorem complete_intStatus (e : ResultCode) (s : State) : (complete e s).intStatus = s.intStatus ||| resultBits e := rfl
@[simp] theorem complete_intEnable (e : ResultCode) (s : State) : (complete e s).intEnable = s.intEnable := rfl
@[simp] theorem complete_len (e : ResultCode) (s : State) : (complete e s).len = s.len := rfl
@[simp] theorem complete_encKeyStage (e : ResultCode) (s : State) : (complete e s).encKeyStage = s.encKeyStage := rfl
@[simp] theorem complete_intKeyStage (e : ResultCode) (s : State) : (complete e s).intKeyStage = s.intKeyStage := rfl
@[simp] theorem complete_ivBuf (e : ResultCode) (s : State) : (complete e s).ivBuf = s.ivBuf := rfl
@[simp] theorem complete_dataIn (e : ResultCode) (s : State) : (complete e s).dataIn = s.dataIn := rfl
@[simp] theorem complete_dataOut (e : ResultCode) (s : State) : (complete e s).dataOut = s.dataOut := rfl
@[simp] theorem complete_scratch (e : ResultCode) (s : State) : (complete e s).scratch = s.scratch := rfl
@[simp] theorem complete_pendOp (e : ResultCode) (s : State) : (complete e s).pendOp = s.pendOp := rfl
@[simp] theorem complete_pendType (e : ResultCode) (s : State) : (complete e s).pendType = s.pendType := rfl
@[simp] theorem complete_events (e : ResultCode) (s : State) : (complete e s).events = s.events := rfl
@[simp] theorem complete_reply (e : ResultCode) (s : State) : (complete e s).reply = s.reply := rfl

@[simp] theorem refuse_lifecycle (s : State) : (refuse s).lifecycle = s.lifecycle := rfl
@[simp] theorem refuse_busy (s : State) : (refuse s).busy = s.busy := rfl
@[simp] theorem refuse_actType (s : State) : (refuse s).actType = s.actType := rfl
@[simp] theorem refuse_actEncKey (s : State) : (refuse s).actEncKey = s.actEncKey := rfl
@[simp] theorem refuse_actIntKey (s : State) : (refuse s).actIntKey = s.actIntKey := rfl
@[simp] theorem refuse_errCode (s : State) : (refuse s).errCode = .illegalCommand := rfl
@[simp] theorem refuse_lastOp (s : State) : (refuse s).lastOp = s.lastOp := rfl
@[simp] theorem refuse_outLen (s : State) : (refuse s).outLen = s.outLen := rfl
@[simp] theorem refuse_intStatus (s : State) : (refuse s).intStatus = s.intStatus ||| resultBits .illegalCommand := rfl
@[simp] theorem refuse_intEnable (s : State) : (refuse s).intEnable = s.intEnable := rfl
@[simp] theorem refuse_len (s : State) : (refuse s).len = s.len := rfl
@[simp] theorem refuse_encKeyStage (s : State) : (refuse s).encKeyStage = s.encKeyStage := rfl
@[simp] theorem refuse_intKeyStage (s : State) : (refuse s).intKeyStage = s.intKeyStage := rfl
@[simp] theorem refuse_ivBuf (s : State) : (refuse s).ivBuf = s.ivBuf := rfl
@[simp] theorem refuse_dataIn (s : State) : (refuse s).dataIn = s.dataIn := rfl
@[simp] theorem refuse_dataOut (s : State) : (refuse s).dataOut = s.dataOut := rfl
@[simp] theorem refuse_scratch (s : State) : (refuse s).scratch = s.scratch := rfl
@[simp] theorem refuse_pendOp (s : State) : (refuse s).pendOp = s.pendOp := rfl
@[simp] theorem refuse_pendType (s : State) : (refuse s).pendType = s.pendType := rfl
@[simp] theorem refuse_events (s : State) : (refuse s).events = s.events := rfl
@[simp] theorem refuse_reply (s : State) : (refuse s).reply = s.reply := rfl

@[simp] theorem latch_lifecycle (v : Word) (s : State) : (latch v s).lifecycle = s.lifecycle := rfl
@[simp] theorem latch_busy (v : Word) (s : State) : (latch v s).busy = true := rfl
@[simp] theorem latch_actType (v : Word) (s : State) : (latch v s).actType = s.actType := rfl
@[simp] theorem latch_actEncKey (v : Word) (s : State) : (latch v s).actEncKey = s.actEncKey := rfl
@[simp] theorem latch_actIntKey (v : Word) (s : State) : (latch v s).actIntKey = s.actIntKey := rfl
@[simp] theorem latch_errCode (v : Word) (s : State) : (latch v s).errCode = s.errCode := rfl
@[simp] theorem latch_lastOp (v : Word) (s : State) : (latch v s).lastOp = opField v := rfl
@[simp] theorem latch_outLen (v : Word) (s : State) : (latch v s).outLen = s.outLen := rfl
@[simp] theorem latch_intStatus (v : Word) (s : State) : (latch v s).intStatus = s.intStatus := rfl
@[simp] theorem latch_intEnable (v : Word) (s : State) : (latch v s).intEnable = s.intEnable := rfl
@[simp] theorem latch_len (v : Word) (s : State) : (latch v s).len = s.len := rfl
@[simp] theorem latch_encKeyStage (v : Word) (s : State) : (latch v s).encKeyStage = s.encKeyStage := rfl
@[simp] theorem latch_intKeyStage (v : Word) (s : State) : (latch v s).intKeyStage = s.intKeyStage := rfl
@[simp] theorem latch_ivBuf (v : Word) (s : State) : (latch v s).ivBuf = s.ivBuf := rfl
@[simp] theorem latch_dataIn (v : Word) (s : State) : (latch v s).dataIn = s.dataIn := rfl
@[simp] theorem latch_dataOut (v : Word) (s : State) : (latch v s).dataOut = s.dataOut := rfl
@[simp] theorem latch_scratch (v : Word) (s : State) : (latch v s).scratch = s.scratch := rfl
@[simp] theorem latch_pendOp (v : Word) (s : State) : (latch v s).pendOp = opField v := rfl
@[simp] theorem latch_pendType (v : Word) (s : State) : (latch v s).pendType = typeField v := rfl
@[simp] theorem latch_events (v : Word) (s : State) : (latch v s).events = s.events := rfl
@[simp] theorem latch_reply (v : Word) (s : State) : (latch v s).reply = s.reply := rfl

@[simp] theorem acknowledge_lifecycle (v : Word) (s : State) : (acknowledge v s).lifecycle = s.lifecycle := rfl
@[simp] theorem acknowledge_busy (v : Word) (s : State) : (acknowledge v s).busy = s.busy := rfl
@[simp] theorem acknowledge_actType (v : Word) (s : State) : (acknowledge v s).actType = s.actType := rfl
@[simp] theorem acknowledge_actEncKey (v : Word) (s : State) : (acknowledge v s).actEncKey = s.actEncKey := rfl
@[simp] theorem acknowledge_actIntKey (v : Word) (s : State) : (acknowledge v s).actIntKey = s.actIntKey := rfl
@[simp] theorem acknowledge_errCode (v : Word) (s : State) : (acknowledge v s).errCode = s.errCode := rfl
@[simp] theorem acknowledge_lastOp (v : Word) (s : State) : (acknowledge v s).lastOp = s.lastOp := rfl
@[simp] theorem acknowledge_outLen (v : Word) (s : State) : (acknowledge v s).outLen = s.outLen := rfl
@[simp] theorem acknowledge_intStatus (v : Word) (s : State) : (acknowledge v s).intStatus = clearBits s.intStatus v := rfl
@[simp] theorem acknowledge_intEnable (v : Word) (s : State) : (acknowledge v s).intEnable = s.intEnable := rfl
@[simp] theorem acknowledge_len (v : Word) (s : State) : (acknowledge v s).len = s.len := rfl
@[simp] theorem acknowledge_encKeyStage (v : Word) (s : State) : (acknowledge v s).encKeyStage = s.encKeyStage := rfl
@[simp] theorem acknowledge_intKeyStage (v : Word) (s : State) : (acknowledge v s).intKeyStage = s.intKeyStage := rfl
@[simp] theorem acknowledge_ivBuf (v : Word) (s : State) : (acknowledge v s).ivBuf = s.ivBuf := rfl
@[simp] theorem acknowledge_dataIn (v : Word) (s : State) : (acknowledge v s).dataIn = s.dataIn := rfl
@[simp] theorem acknowledge_dataOut (v : Word) (s : State) : (acknowledge v s).dataOut = s.dataOut := rfl
@[simp] theorem acknowledge_scratch (v : Word) (s : State) : (acknowledge v s).scratch = s.scratch := rfl
@[simp] theorem acknowledge_pendOp (v : Word) (s : State) : (acknowledge v s).pendOp = s.pendOp := rfl
@[simp] theorem acknowledge_pendType (v : Word) (s : State) : (acknowledge v s).pendType = s.pendType := rfl
@[simp] theorem acknowledge_events (v : Word) (s : State) : (acknowledge v s).events = s.events := rfl
@[simp] theorem acknowledge_reply (v : Word) (s : State) : (acknowledge v s).reply = s.reply := rfl

@[simp] theorem dropWrite_lifecycle (s : State) : (dropWrite s).lifecycle = s.lifecycle := rfl
@[simp] theorem dropWrite_busy (s : State) : (dropWrite s).busy = s.busy := rfl
@[simp] theorem dropWrite_actType (s : State) : (dropWrite s).actType = s.actType := rfl
@[simp] theorem dropWrite_actEncKey (s : State) : (dropWrite s).actEncKey = s.actEncKey := rfl
@[simp] theorem dropWrite_actIntKey (s : State) : (dropWrite s).actIntKey = s.actIntKey := rfl
@[simp] theorem dropWrite_errCode (s : State) : (dropWrite s).errCode = s.errCode := rfl
@[simp] theorem dropWrite_lastOp (s : State) : (dropWrite s).lastOp = s.lastOp := rfl
@[simp] theorem dropWrite_outLen (s : State) : (dropWrite s).outLen = s.outLen := rfl
@[simp] theorem dropWrite_intStatus (s : State) : (dropWrite s).intStatus = s.intStatus ||| werrBit := rfl
@[simp] theorem dropWrite_intEnable (s : State) : (dropWrite s).intEnable = s.intEnable := rfl
@[simp] theorem dropWrite_len (s : State) : (dropWrite s).len = s.len := rfl
@[simp] theorem dropWrite_encKeyStage (s : State) : (dropWrite s).encKeyStage = s.encKeyStage := rfl
@[simp] theorem dropWrite_intKeyStage (s : State) : (dropWrite s).intKeyStage = s.intKeyStage := rfl
@[simp] theorem dropWrite_ivBuf (s : State) : (dropWrite s).ivBuf = s.ivBuf := rfl
@[simp] theorem dropWrite_dataIn (s : State) : (dropWrite s).dataIn = s.dataIn := rfl
@[simp] theorem dropWrite_dataOut (s : State) : (dropWrite s).dataOut = s.dataOut := rfl
@[simp] theorem dropWrite_scratch (s : State) : (dropWrite s).scratch = s.scratch := rfl
@[simp] theorem dropWrite_pendOp (s : State) : (dropWrite s).pendOp = s.pendOp := rfl
@[simp] theorem dropWrite_pendType (s : State) : (dropWrite s).pendType = s.pendType := rfl
@[simp] theorem dropWrite_events (s : State) : (dropWrite s).events = s.events := rfl
@[simp] theorem dropWrite_reply (s : State) : (dropWrite s).reply = s.reply := rfl

@[simp] theorem raise_eq_complete (e : ResultCode) (s : State) : raise e s = complete e s := rfl
@[simp] theorem softReset_eq_toReset (s : State) : softReset s = toReset s := rfl
@[simp] theorem hardReset_eq_toReset (s : State) : hardReset s = toReset s := rfl

@[simp] theorem toReset_lifecycle (s : State) : (toReset s).lifecycle = State.reset.lifecycle := rfl
@[simp] theorem toReset_busy (s : State) : (toReset s).busy = State.reset.busy := rfl
@[simp] theorem toReset_actType (s : State) : (toReset s).actType = State.reset.actType := rfl
@[simp] theorem toReset_actEncKey (s : State) : (toReset s).actEncKey = State.reset.actEncKey := rfl
@[simp] theorem toReset_actIntKey (s : State) : (toReset s).actIntKey = State.reset.actIntKey := rfl
@[simp] theorem toReset_errCode (s : State) : (toReset s).errCode = State.reset.errCode := rfl
@[simp] theorem toReset_lastOp (s : State) : (toReset s).lastOp = State.reset.lastOp := rfl
@[simp] theorem toReset_outLen (s : State) : (toReset s).outLen = State.reset.outLen := rfl
@[simp] theorem toReset_intStatus (s : State) : (toReset s).intStatus = State.reset.intStatus := rfl
@[simp] theorem toReset_intEnable (s : State) : (toReset s).intEnable = State.reset.intEnable := rfl
@[simp] theorem toReset_len (s : State) : (toReset s).len = State.reset.len := rfl
@[simp] theorem toReset_encKeyStage (s : State) : (toReset s).encKeyStage = State.reset.encKeyStage := rfl
@[simp] theorem toReset_intKeyStage (s : State) : (toReset s).intKeyStage = State.reset.intKeyStage := rfl
@[simp] theorem toReset_ivBuf (s : State) : (toReset s).ivBuf = State.reset.ivBuf := rfl
@[simp] theorem toReset_dataIn (s : State) : (toReset s).dataIn = State.reset.dataIn := rfl
@[simp] theorem toReset_dataOut (s : State) : (toReset s).dataOut = State.reset.dataOut := rfl
@[simp] theorem toReset_scratch (s : State) : (toReset s).scratch = State.reset.scratch := rfl
@[simp] theorem toReset_pendOp (s : State) : (toReset s).pendOp = State.reset.pendOp := rfl
@[simp] theorem toReset_pendType (s : State) : (toReset s).pendType = State.reset.pendType := rfl
@[simp] theorem toReset_events (s : State) : (toReset s).events = s.events := rfl
@[simp] theorem toReset_reply (s : State) : (toReset s).reply = s.reply := rfl

@[simp] theorem setBuf_lifecycle (s : State) (b : Buffer) (m : Memory) : (s.setBuf b m).lifecycle = s.lifecycle := by cases b <;> rfl
@[simp] theorem setBuf_busy (s : State) (b : Buffer) (m : Memory) : (s.setBuf b m).busy = s.busy := by cases b <;> rfl
@[simp] theorem setBuf_actType (s : State) (b : Buffer) (m : Memory) : (s.setBuf b m).actType = s.actType := by cases b <;> rfl
@[simp] theorem setBuf_actEncKey (s : State) (b : Buffer) (m : Memory) : (s.setBuf b m).actEncKey = s.actEncKey := by cases b <;> rfl
@[simp] theorem setBuf_actIntKey (s : State) (b : Buffer) (m : Memory) : (s.setBuf b m).actIntKey = s.actIntKey := by cases b <;> rfl
@[simp] theorem setBuf_errCode (s : State) (b : Buffer) (m : Memory) : (s.setBuf b m).errCode = s.errCode := by cases b <;> rfl
@[simp] theorem setBuf_lastOp (s : State) (b : Buffer) (m : Memory) : (s.setBuf b m).lastOp = s.lastOp := by cases b <;> rfl
@[simp] theorem setBuf_outLen (s : State) (b : Buffer) (m : Memory) : (s.setBuf b m).outLen = s.outLen := by cases b <;> rfl
@[simp] theorem setBuf_intStatus (s : State) (b : Buffer) (m : Memory) : (s.setBuf b m).intStatus = s.intStatus := by cases b <;> rfl
@[simp] theorem setBuf_intEnable (s : State) (b : Buffer) (m : Memory) : (s.setBuf b m).intEnable = s.intEnable := by cases b <;> rfl
@[simp] theorem setBuf_len (s : State) (b : Buffer) (m : Memory) : (s.setBuf b m).len = s.len := by cases b <;> rfl
@[simp] theorem setBuf_scratch (s : State) (b : Buffer) (m : Memory) : (s.setBuf b m).scratch = s.scratch := by cases b <;> rfl
@[simp] theorem setBuf_pendOp (s : State) (b : Buffer) (m : Memory) : (s.setBuf b m).pendOp = s.pendOp := by cases b <;> rfl
@[simp] theorem setBuf_pendType (s : State) (b : Buffer) (m : Memory) : (s.setBuf b m).pendType = s.pendType := by cases b <;> rfl
@[simp] theorem setBuf_events (s : State) (b : Buffer) (m : Memory) : (s.setBuf b m).events = s.events := by cases b <;> rfl
@[simp] theorem setBuf_reply (s : State) (b : Buffer) (m : Memory) : (s.setBuf b m).reply = s.reply := by cases b <;> rfl
theorem setBuf_encKeyStage (s : State) (b : Buffer) (m : Memory) :
    (s.setBuf b m).encKeyStage = if b = .encKey then m else s.encKeyStage := by cases b <;> rfl
theorem setBuf_intKeyStage (s : State) (b : Buffer) (m : Memory) :
    (s.setBuf b m).intKeyStage = if b = .intKey then m else s.intKeyStage := by cases b <;> rfl
theorem setBuf_ivBuf (s : State) (b : Buffer) (m : Memory) :
    (s.setBuf b m).ivBuf = if b = .iv then m else s.ivBuf := by cases b <;> rfl
theorem setBuf_dataIn (s : State) (b : Buffer) (m : Memory) :
    (s.setBuf b m).dataIn = if b = .dataIn then m else s.dataIn := by cases b <;> rfl
theorem setBuf_dataOut (s : State) (b : Buffer) (m : Memory) :
    (s.setBuf b m).dataOut = if b = .dataOut then m else s.dataOut := by cases b <;> rfl

/-- Writing a window's array leaves every other window's array alone. -/
theorem setBuf_buf (s : State) (b c : Buffer) (m : Memory) :
    (s.setBuf b m).buf c = if b = c then m else s.buf c := by cases b <;> cases c <;> rfl

end Sys2Proof.Machine
end

