-- ==== Sys2Proof/Laws/Ops.lean ====
section
/-! SUPPORT. What each shared operation can do, said once: decoding an offset, a register read, a register write, issue. -/

namespace Sys2Proof.Machine

/-- Every offset with a target is a word offset of the map (R22). -/
theorem target?_eq_some (off : Offset) (t : Target) (h : target? off = some t) :
    off.toNat % 4 = 0 ∧
      ((off.toNat = 0x000 ∧ t = .id) ∨ (off.toNat = 0x004 ∧ t = .cmd) ∨ (off.toNat = 0x008 ∧ t = .status) ∨
       (off.toNat = 0x00C ∧ t = .intStatus) ∨ (off.toNat = 0x010 ∧ t = .intEnable) ∨ (off.toNat = 0x014 ∧ t = .len) ∨
       ∃ b k, t = .buf b k ∧ off.toNat = b.base + k ∧ k + 4 ≤ b.size ∧ k % 4 = 0) := by
  simp only [target?] at h
  by_cases h4 : off.toNat % 4 = 0
  · refine ⟨h4, ?_⟩
    rw [if_neg (fun hc => hc h4)] at h
    generalize off.toNat = o at h h4
    by_cases hc : o = 0x000
    · rw [if_pos hc] at h; injection h with h; subst h; exact .inl ⟨hc, rfl⟩
    rw [if_neg hc] at h; clear hc
    by_cases hc : o = 0x004
    · rw [if_pos hc] at h; injection h with h; subst h; exact .inr (.inl ⟨hc, rfl⟩)
    rw [if_neg hc] at h; clear hc
    by_cases hc : o = 0x008
    · rw [if_pos hc] at h; injection h with h; subst h; exact .inr (.inr (.inl ⟨hc, rfl⟩))
    rw [if_neg hc] at h; clear hc
    by_cases hc : o = 0x00C
    · rw [if_pos hc] at h; injection h with h; subst h; exact .inr (.inr (.inr (.inl ⟨hc, rfl⟩)))
    rw [if_neg hc] at h; clear hc
    by_cases hc : o = 0x010
    · rw [if_pos hc] at h; injection h with h; subst h; exact .inr (.inr (.inr (.inr (.inl ⟨hc, rfl⟩))))
    rw [if_neg hc] at h; clear hc
    by_cases hc : o = 0x014
    · rw [if_pos hc] at h; injection h with h; subst h; exact .inr (.inr (.inr (.inr (.inr (.inl ⟨hc, rfl⟩)))))
    rw [if_neg hc] at h; clear hc
    by_cases g0 : o < 0x100
    · rw [if_pos g0] at h; cases h
    rw [if_neg g0] at h
    by_cases g1 : o < 0x140
    · rw [if_pos g1] at h; injection h with h; subst h
      exact .inr (.inr (.inr (.inr (.inr (.inr ⟨_, _, rfl, by simp only [Buffer.base]; omega,
        by change _ + 4 ≤ 64; omega,
        by omega⟩)))))
    rw [if_neg g1] at h
    by_cases g2 : o < 0x180
    · rw [if_pos g2] at h; injection h with h; subst h
      exact .inr (.inr (.inr (.inr (.inr (.inr ⟨_, _, rfl, by simp only [Buffer.base]; omega,
        by change _ + 4 ≤ 64; omega,
        by omega⟩)))))
    rw [if_neg g2] at h
    by_cases g3 : o < 0x190
    · rw [if_pos g3] at h; injection h with h; subst h
      exact .inr (.inr (.inr (.inr (.inr (.inr ⟨_, _, rfl, by simp only [Buffer.base]; omega,
        by change _ + 4 ≤ 16; omega,
        by omega⟩)))))
    rw [if_neg g3] at h
    by_cases g4 : o < 0x1C0
    · rw [if_pos g4] at h; cases h
    rw [if_neg g4] at h
    by_cases g5 : o < 0x200
    · rw [if_pos g5] at h; injection h with h; subst h
      exact .inr (.inr (.inr (.inr (.inr (.inr ⟨_, _, rfl, by simp only [Buffer.base]; omega,
        by change _ + 4 ≤ 64; omega,
        by omega⟩)))))
    rw [if_neg g5] at h
    by_cases g6 : o < 0x240
    · rw [if_pos g6] at h; injection h with h; subst h
      exact .inr (.inr (.inr (.inr (.inr (.inr ⟨_, _, rfl, by simp only [Buffer.base]; omega,
        by change _ + 4 ≤ 64; omega,
        by omega⟩)))))
    rw [if_neg g6] at h
    cases h
  · rw [if_pos h4] at h; cases h

/-- A buffer target lies in its buffer. -/
theorem target?_buf (off : Offset) (b : Buffer) (k : Nat) (h : target? off = some (.buf b k)) :
    off.toNat = b.base + k ∧ k + 4 ≤ b.size ∧ k % 4 = 0 := by
  obtain ⟨-, h⟩ := target?_eq_some off _ h
  rcases h with h | h | h | h | h | h | ⟨b', k', h, h'⟩
  iterate 6 exact absurd h.2 (by simp)
  · injection h with h1 h2; subst h1 h2; exact h'

/-- The target of every word offset, range by range (R22). -/
theorem target?_of_range (off : Offset) (h4 : off.toNat % 4 = 0) :
    (off.toNat = 0x000 → target? off = some .id) ∧ (off.toNat = 0x004 → target? off = some .cmd) ∧
    (off.toNat = 0x008 → target? off = some .status) ∧ (off.toNat = 0x00C → target? off = some .intStatus) ∧
    (off.toNat = 0x010 → target? off = some .intEnable) ∧ (off.toNat = 0x014 → target? off = some .len) ∧
    (0x100 ≤ off.toNat → off.toNat < 0x140 → target? off = some (.buf .encKey (off.toNat - 0x100))) ∧
    (0x140 ≤ off.toNat → off.toNat < 0x180 → target? off = some (.buf .intKey (off.toNat - 0x140))) ∧
    (0x180 ≤ off.toNat → off.toNat < 0x190 → target? off = some (.buf .iv (off.toNat - 0x180))) ∧
    (0x1C0 ≤ off.toNat → off.toNat < 0x200 → target? off = some (.buf .dataIn (off.toNat - 0x1C0))) ∧
    (0x200 ≤ off.toNat → off.toNat < 0x240 → target? off = some (.buf .dataOut (off.toNat - 0x200))) ∧
    (0x018 ≤ off.toNat → off.toNat < 0x100 → target? off = none) ∧
    (0x190 ≤ off.toNat → off.toNat < 0x1C0 → target? off = none) ∧ (0x240 ≤ off.toNat → target? off = none) := by
  simp only [target?]
  generalize off.toNat = o at *
  rw [if_neg (show ¬o % 4 ≠ 0 by omega)]
  refine ⟨?_, ?_, ?_, ?_, ?_, ?_, ?_, ?_, ?_, ?_, ?_, ?_, ?_, ?_⟩ <;> intros
  all_goals repeat first | rw [if_pos (by omega)] | rw [if_neg (by omega)]

@[simp] theorem regRead_id (s : State) : regRead .id s = 0x48533101#32 := rfl
@[simp] theorem regRead_cmd (s : State) : regRead .cmd s = 0#32 := rfl
@[simp] theorem regRead_status (s : State) : regRead .status s = s.statusWord := rfl
@[simp] theorem regRead_intStatus (s : State) : regRead .intStatus s = s.intStatus.setWidth 32 := rfl
@[simp] theorem regRead_intEnable (s : State) : regRead .intEnable s = s.intEnable.setWidth 32 := rfl
@[simp] theorem regRead_len (s : State) : regRead .len s = s.len := rfl
@[simp] theorem regRead_encKey (s : State) (k : Nat) : regRead (.buf .encKey k) s = 0#32 := rfl
@[simp] theorem regRead_intKey (s : State) (k : Nat) : regRead (.buf .intKey k) s = 0#32 := rfl
@[simp] theorem regRead_iv (s : State) (k : Nat) : regRead (.buf .iv k) s = s.ivBuf.wordAt k := rfl
@[simp] theorem regRead_dataIn (s : State) (k : Nat) : regRead (.buf .dataIn k) s = s.dataIn.wordAt k := rfl
@[simp] theorem regRead_dataOut (s : State) (k : Nat) : regRead (.buf .dataOut k) s = s.dataOut.wordAt k := rfl

/-- All an issue can do: latch a word that decodes, or refuse one that does not. -/
theorem issue_cases (v : Word) (s : State) :
    (∃ i, decode v = .ok i ∧ issue v s = latch v s) ∨
      (∃ e, decode v = .error e ∧ issue v s = refuse { s with lastOp := opField v }) := by
  unfold issue
  cases h : decode v with
  | ok i => exact .inl ⟨i, rfl, rfl⟩
  | error e => exact .inr ⟨e, rfl, rfl⟩

/-- All a register write can do. -/
theorem regWrite_cases (t : Target) (v : Word) (s : State) :
    (regWrite t v s = s ∧ (t = .id ∨ t = .status ∨ ∃ k, t = .buf .dataOut k)) ∨
    (regWrite t v s = acknowledge v s ∧ t = .intStatus) ∨
    (regWrite t v s = { s with intEnable := v.extractLsb' 0 3 } ∧ t = .intEnable) ∨
    (regWrite t v s = toReset s ∧ t = .cmd ∧ v = sresetWord) ∨
    (regWrite t v s = dropWrite s ∧ s.busy = true) ∨
    (regWrite t v s = issue v s ∧ t = .cmd ∧ v ≠ sresetWord ∧ s.busy = false) ∨
    (regWrite t v s = { s with len := v } ∧ t = .len ∧ s.busy = false) ∨
    (∃ b k, regWrite t v s = s.setBuf b ((s.buf b).setWord k v) ∧ t = .buf b k ∧ b ≠ .dataOut ∧ s.busy = false) := by
  cases t with
  | id => simp [regWrite]
  | status => simp [regWrite]
  | intStatus => simp [regWrite]
  | intEnable => simp [regWrite]
  | cmd =>
    by_cases hv : v = sresetWord
    · simp [regWrite, hv]
    · cases hb : s.busy <;> simp [regWrite, hv, hb]
  | len => cases hb : s.busy <;> simp [regWrite, hb]
  | buf b k =>
    cases b <;> cases hb : s.busy <;> simp [regWrite, Buffer.readOnly, hb]

/-- A read's effect in the block: none (R76). -/
theorem hostAccess_read (off : Offset) (size : Nat) (s : State) :
    ∃ r, hostAccess (.read off size) s = { s with reply := r } := by
  cases h : accessTarget? off size with
  | none => exact ⟨.busError off .read, by simp only [hostAccess, h]⟩
  | some t => exact ⟨.data (regRead t s), by simp only [hostAccess, h]⟩

/-- A write's effect: that of the register write on a mapped word, else a bus error and nothing more. -/
theorem hostAccess_write (off : Offset) (size : Nat) (v : Word) (s : State) :
    (∃ t, accessTarget? off size = some t ∧
      hostAccess (.write off size v) s = regWrite t v { s with reply := .written }) ∨
    (accessTarget? off size = none ∧ hostAccess (.write off size v) s = { s with reply := .busError off .write }) := by
  cases h : accessTarget? off size with
  | none => exact .inr ⟨rfl, by simp only [hostAccess, h]⟩
  | some t => exact .inl ⟨t, rfl, by simp only [hostAccess, h]⟩

end Sys2Proof.Machine
end

