-- ==== Sys2Proof/Laws/Primitives.lean ====
section
/-! SUPPORT. Lengths and elements of the cryptographic primitives' results. -/

namespace Sys2Proof.Machine

@[simp] theorem chainBytes_length (h : Chain) : (chainBytes h).length = 20 := rfl

@[simp] theorem sha1_length (m : List Byte) : (sha1 m).length = 20 := rfl

@[simp] theorem hmacSha1_length (k m : List Byte) : (hmacSha1 k m).length = 20 := rfl

@[simp] theorem keystreamPad_length (k iv : List Byte) : (keystreamPad k iv).length = 20 := rfl

@[simp] theorem integrityHmac_length (k p iv : List Byte) : (integrityHmac k p iv).length = 20 := rfl

@[simp] theorem xorEach_length (x : Byte) (s : List Byte) : (xorEach x s).length = s.length := by simp [xorEach]

@[simp] theorem hmacKeyBlock_length (k : List Byte) : (hmacKeyBlock k).length = 64 := by
  unfold hmacKeyBlock
  split
  · simp; omega
  · simp

@[simp] theorem innerKey_length (k : List Byte) : (innerKey k).length = 64 := by simp [innerKey]

@[simp] theorem outerKey_length (k : List Byte) : (outerKey k).length = 64 := by simp [outerKey]

@[simp] theorem xorPad_length (x pad : List Byte) : (xorPad x pad).length = min x.length pad.length := by
  simp [xorPad]

theorem xorPad_getD (x pad : List Byte) (i : Nat) (hx : i < x.length) (hp : i < pad.length) :
    (xorPad x pad).getD i 0#8 = x.getD i 0#8 ^^^ pad.getD i 0#8 := by
  simp [xorPad, List.getD, hx, hp]

/-- The padded message fills whole blocks. -/
theorem sha1Pad_length (m : List Byte) : (sha1Pad m).length % 64 = 0 ∧ (sha1Pad m).length ≥ m.length + 9 := by
  simp only [sha1Pad, List.length_append, List.length_cons, List.length_nil, zeros_length, be64_length]
  omega

theorem scratchImage_length (pad body full : List Byte) (hp : pad.length = 20) (hb : body.length ≤ 16)
    (hf : full.length = 20) : (scratchImage pad body full).length = 64 := by
  simp [scratchImage, hp, hf]; omega

end Sys2Proof.Machine
end

