-- ==== Sys2Proof/Laws/Step.lean ====
section
/-! SUPPORT. What each command's meaning and one step can do, said once: the inversion lemmas. -/

namespace Sys2Proof.Machine

@[simp] theorem exec_nop (s : State) : exec .nop s = .next (complete .ok s) := rfl
@[simp] theorem exec_configure (t : BitVec 3) (s : State) : exec (.configure t) s = .next (configure t s) := rfl
@[simp] theorem exec_decrypt (s : State) : exec .decrypt s = .next (decrypt s) := rfl
@[simp] theorem exec_encrypt (s : State) : exec .encrypt s = .next (encrypt s) := rfl
@[simp] theorem exec_sreset (s : State) : exec .sreset s = .next (toReset s) := rfl

/-- The state RELEASE leaves, its zeroed arrays in canonical form. -/
def released (s : State) : State :=
  complete .ok
    { s with
      scratch := [], dataOut := [], outLen := 0#8, dataIn := [], ivBuf := [], len := 0#32, encKeyStage := [],
      intKeyStage := [], actEncKey := [], actIntKey := [], actType := 0#3, lifecycle := .released }

theorem exec_release (s : State) : exec .release s = .next (released s) := by
  rfl

theorem formatRow_none_iff (t : BitVec 3) : formatRow t = none ↔ 4 ≤ t.toNat := by
  revert t; decide

theorem formatRow_some (t : BitVec 3) (f : Format) (h : formatRow t = some f) :
    TypeLengths t f.messageLen f.payloadLen := by
  revert h
  revert t
  simp only [TypeLengths]
  intro t
  have : ∀ t : BitVec 3, formatRow t = none ∨ formatRow t = some ⟨36, 16⟩ ∧ t.toNat = 0 ∨
      formatRow t = some ⟨28, 8⟩ ∧ t.toNat = 1 ∨ formatRow t = some ⟨28, 8⟩ ∧ t.toNat = 2 ∨
      formatRow t = some ⟨32, 12⟩ ∧ t.toNat = 3 := by decide
  rcases this t with h | ⟨h, h'⟩ | ⟨h, h'⟩ | ⟨h, h'⟩ | ⟨h, h'⟩ <;> rw [h] <;> intro e <;> cases e <;> simp [h']

theorem formatRow_of_typeLengths (t : BitVec 3) (ml n : Nat) (h : TypeLengths t ml n) :
    formatRow t = some ⟨ml, n⟩ := by
  simp only [TypeLengths, List.mem_cons, Prod.mk.injEq, List.not_mem_nil, or_false] at h
  have : ∀ t : BitVec 3, (t.toNat = 0 → formatRow t = some ⟨36, 16⟩) ∧ (t.toNat = 1 → formatRow t = some ⟨28, 8⟩) ∧
      (t.toNat = 2 → formatRow t = some ⟨28, 8⟩) ∧ (t.toNat = 3 → formatRow t = some ⟨32, 12⟩) := by decide
  obtain ⟨h0, h1, h2, h3⟩ := this t
  rcases h with ⟨h, rfl, rfl⟩ | ⟨h, rfl, rfl⟩ | ⟨h, rfl, rfl⟩ | ⟨h, rfl, rfl⟩
  · exact h0 h
  · exact h1 h
  · exact h2 h
  · exact h3 h

/-- All CONFIGURE can do. -/
theorem configure_cases (t : BitVec 3) (s : State) :
    (4 ≤ t.toNat ∧ configure t s = complete .unknownType s) ∨
    (t.toNat < 4 ∧ (64 < s.encKeyLen.toNat ∨ 64 < s.intKeyLen.toNat) ∧ configure t s = complete .badKeyLength s) ∨
    (t.toNat < 4 ∧ s.encKeyLen.toNat ≤ 64 ∧ s.intKeyLen.toNat ≤ 64 ∧
      configure t s = complete .ok
        { s with actType := t, actEncKey := s.stagedEncKey, actIntKey := s.stagedIntKey, lifecycle := .keyed }) := by
  unfold configure
  cases h : formatRow t with
  | none => exact .inl ⟨(formatRow_none_iff t).1 h, rfl⟩
  | some f =>
    have ht : t.toNat < 4 := by
      by_contra hc
      rw [(formatRow_none_iff t).2 (by omega)] at h
      cases h
    have hk : Config.keyMax = 64 := rfl
    by_cases hl : s.encKeyLen.toNat > Config.keyMax ∨ s.intKeyLen.toNat > Config.keyMax
    · exact .inr (.inl ⟨ht, hl, if_pos hl⟩)
    · exact .inr (.inr ⟨ht, by omega, by omega, if_neg hl⟩)

/-- All DECRYPT can do: an error that leaves everything but the status, a tag failure that also wrote SCRATCH, or the
payload delivered. -/
theorem decrypt_cases (s : State) :
    (∃ e, e ≠ .ok ∧ decrypt s = complete e s) ∨
    (∃ f sc, s.lifecycle = .keyed ∧ formatRow s.actType = some f ∧ s.inLen.toNat = f.messageLen ∧
      decrypt s = complete .signatureCheckFailed { s with scratch := Memory.ofBytes sc } ∧ sc.length = 64 ∧
      ∀ k, 56 ≤ k → sc.getD k 0#8 = 0#8) ∨
    (∃ f sc p, s.lifecycle = .keyed ∧ formatRow s.actType = some f ∧ s.inLen.toNat = f.messageLen ∧
      decrypt s = complete .ok
        { s with
          scratch := Memory.ofBytes sc, dataOut := Memory.ofBytes (p ++ zeros (64 - f.payloadLen)),
          outLen := BitVec.ofNat 8 f.payloadLen } ∧
      sc.length = 64 ∧ (∀ k, 56 ≤ k → sc.getD k 0#8 = 0#8) ∧ p.length = f.payloadLen) := by
  unfold decrypt
  by_cases hk : s.lifecycle = .keyed
  · rw [if_neg (by simp [hk])]
    cases hf : formatRow s.actType with
    | none => exact .inl ⟨_, by simp, rfl⟩
    | some f =>
      simp only
      by_cases hl : s.inLen.toNat = f.messageLen
      · rw [if_neg (by simp [hl])]
        have hn := formatRow_some _ _ hf
        simp only [TypeLengths, List.mem_cons, Prod.mk.injEq, List.not_mem_nil, or_false] at hn
        have hp : (xorPad (slice (s.input f.messageLen) 16 (16 + f.payloadLen))
            (keystreamPad s.actEncKey (slice (s.input f.messageLen) 0 16))).length = f.payloadLen := by
          simp [State.input]; omega
        have hsc := scratchImage_length
          (keystreamPad s.actEncKey (slice (s.input f.messageLen) 0 16))
          (xorPad (slice (s.input f.messageLen) 16 (16 + f.payloadLen))
            (keystreamPad s.actEncKey (slice (s.input f.messageLen) 0 16)))
          (integrityHmac s.actIntKey (xorPad (slice (s.input f.messageLen) 16 (16 + f.payloadLen))
            (keystreamPad s.actEncKey (slice (s.input f.messageLen) 0 16))) (slice (s.input f.messageLen) 0 16))
          (by simp) (by omega) (by simp)
        have htail : ∀ (pad body full : List Byte), pad.length = 20 → body.length ≤ 16 → full.length = 20 →
            ∀ k, 56 ≤ k → (scratchImage pad body full).getD k 0#8 = 0#8 := by
          intro pad body full h1 h2 h3 k hk
          rw [scratchImage, getD_append_zeros, List.getD_eq_default]
          simp [h1, h3]; omega
        unfold openToken
        simp only
        split
        · exact .inr (.inr ⟨f, _, _, hk, rfl, hl, rfl, hsc, htail _ _ _ (by simp) (by omega) (by simp), hp⟩)
        · exact .inr (.inl ⟨f, _, hk, rfl, hl, rfl, hsc, htail _ _ _ (by simp) (by omega) (by simp)⟩)
      · rw [if_pos (by simp [hl])]
        exact .inl ⟨_, by simp, rfl⟩
  · rw [if_pos hk]
    exact .inl ⟨_, by simp, rfl⟩

/-- All ENCRYPT can do: an error that leaves everything but the status, or the token delivered. -/
theorem encrypt_cases (s : State) :
    (∃ e, e ≠ .ok ∧ encrypt s = complete e s) ∨
    (∃ f sc tok, s.lifecycle = .keyed ∧ formatRow s.actType = some f ∧ s.ivLen.toNat = 16 ∧
      s.inLen.toNat = f.payloadLen ∧
      encrypt s = complete .ok
        { s with
          scratch := Memory.ofBytes sc, dataOut := Memory.ofBytes (tok ++ zeros (64 - f.messageLen)),
          outLen := BitVec.ofNat 8 f.messageLen } ∧
      sc.length = 64 ∧ (∀ k, 56 ≤ k → sc.getD k 0#8 = 0#8) ∧ tok.length = f.messageLen) := by
  unfold encrypt
  by_cases hk : s.lifecycle = .keyed
  · rw [if_neg (by simp [hk])]
    cases hf : formatRow s.actType with
    | none => exact .inl ⟨_, by simp, rfl⟩
    | some f =>
      simp only
      have hn := formatRow_some _ _ hf
      simp only [TypeLengths, List.mem_cons, Prod.mk.injEq, List.not_mem_nil, or_false] at hn
      by_cases hv : s.ivLen.toNat = Config.ivLen
      · rw [if_neg (by simp [hv])]
        by_cases hl : s.inLen.toNat = f.payloadLen
        · rw [if_neg (by simp [hl])]
          refine .inr ⟨f, _, _, hk, rfl, hv, hl, rfl, ?_, ?_, ?_⟩
          · exact scratchImage_length _ _ _ (by simp) (by simp [State.input]; omega) (by simp)
          · intro k hk
            rw [scratchImage, getD_append_zeros, List.getD_eq_default]
            simp [State.input]; omega
          · simp [State.initVector, State.input, Config.ivLen]; omega
        · rw [if_pos (by simp [hl])]
          exact .inl ⟨_, by simp, rfl⟩
      · rw [if_pos (by simp [hv])]
        exact .inl ⟨_, by simp, rfl⟩
  · rw [if_pos hk]
    exact .inl ⟨_, by simp, rfl⟩

/-- An access that runs a command in its own step is the SRESET write. -/
theorem command?_eq_some (a : Access) (i : Instr) (h : a.command? = some i) :
    i = .sreset ∧ ∃ off, a = .write off 4 sresetWord ∧ off.toNat = 0x004 := by
  cases a with
  | read off size => cases h
  | write off size v =>
    simp only [Access.command?] at h
    cases ht : accessTarget? off size with
    | none => rw [ht] at h; cases h
    | some t =>
      rw [ht] at h
      cases t with
      | cmd =>
        simp only at h
        by_cases hv : v = sresetWord
        · subst hv
          rw [if_pos rfl] at h
          have : decode? sresetWord = some .sreset := by decide
          rw [this] at h
          injection h with h
          unfold accessTarget? at ht
          split at ht
          · have := (target?_eq_some _ _ ht).2
            refine ⟨h.symm, off, by simp_all, ?_⟩
            rcases this with h | h | h | h | h | h | ⟨b, k, h, -⟩
            · exact absurd h.2 (by simp)
            · exact h.1
            iterate 4 exact absurd h.2 (by simp)
            · cases h
          · cases ht
        · rw [if_neg hv] at h; cases h
      | _ => cases h

/-- A host access that runs no command is one step: the access, its input consumed. -/
theorem step_hostAccess (s : State) (a : Access) (es : List Event) (h : HostMoves s a es) (hc : a.command? = none) :
    step s = .next (hostAccess a { s with events := es }) := by
  simp only [HostMoves] at h
  simp only [step, nextAction, h, hostTurn, hc]

/-- A read runs no command. -/
@[simp] theorem command?_read (off : Offset) (size : Nat) : (Access.read off size).command? = none := rfl

/-- A write that is not the SRESET word to CMD runs no command. -/
theorem command?_write (off : Offset) (size : Nat) (v : Word) (h : off.toNat ≠ 0x004 ∨ v ≠ sresetWord) :
    (Access.write off size v).command? = none := by
  cases hc : (Access.write off size v).command? with
  | none => rfl
  | some i =>
    obtain ⟨-, off', he, ho⟩ := command?_eq_some _ i hc
    injection he with h1 h2 h3
    subst h1 h3
    rcases h with h | h
    · exact absurd ho h
    · exact absurd rfl h

/-- The engine's command is what PEND decodes to, never SRESET. -/
theorem pendingCommand_eq_some (s : State) (i : Instr) :
    s.pendingCommand = some i ↔ decode s.pendWord = .ok i ∧ i ≠ .sreset := by
  unfold State.pendingCommand
  cases h : decode s.pendWord with
  | error e => simp
  | ok j => cases j <;> simp <;> (rintro rfl; simp)

/-- All one step can do, when it answers a next state. -/
theorem step_cases (s t : State) (h : step s = .next t) :
    (∃ es, EngineMoves s es ∧ s.busy = false ∧ t = { s with events := es }) ∨
    (∃ es i, EngineMoves s es ∧ s.busy = true ∧ s.pendingCommand = some i ∧ i ≠ .sreset ∧
      exec i { s with events := es } = .next t) ∨
    (∃ a es, HostMoves s a es ∧ a.command? = none ∧ t = hostAccess a { s with events := es }) ∨
    (∃ es, SresetMoves s es ∧ t = toReset { s with events := es, reply := .written }) ∨
    (∃ es, s.events = .hardwareReset :: es ∧ t = toReset { s with events := es }) := by
  have engine : ∀ es, EngineMoves s es → nextAction s = engineTurn { s with events := es } →
      (∃ es, EngineMoves s es ∧ s.busy = false ∧ t = { s with events := es }) ∨
      (∃ es i, EngineMoves s es ∧ s.busy = true ∧ s.pendingCommand = some i ∧ i ≠ .sreset ∧
        exec i { s with events := es } = .next t) := by
    intro es hm hn
    simp only [step, hn, engineTurn] at h
    have hp : State.pendingCommand { s with events := es } = s.pendingCommand := rfl
    rw [hp] at h
    cases hb : s.busy with
    | false =>
      simp only [hb, Bool.false_eq_true, if_false] at h
      exact .inl ⟨es, hm, rfl, by injection h with h; exact h.symm⟩
    | true =>
      simp only [hb, if_true] at h
      cases hc : s.pendingCommand with
      | none => rw [hc] at h; cases h
      | some i =>
        rw [hc] at h
        exact .inr ⟨es, i, hm, rfl, rfl, ((pendingCommand_eq_some s i).1 hc).2, h⟩
  cases he : s.events with
  | nil =>
    have := engine [] (.inl ⟨he, rfl⟩) (by simp only [nextAction, he]; congr 1; cases s; simp_all)
    rcases this with h | h
    · exact .inl h
    · exact .inr (.inl h)
  | cons e es =>
    cases e with
    | engine =>
      have := engine es (.inr he) (by simp only [nextAction, he])
      rcases this with h | h
      · exact .inl h
      · exact .inr (.inl h)
    | bus a =>
      simp only [step, nextAction, he, hostTurn] at h
      cases hc : a.command? with
      | none =>
        rw [hc] at h
        injection h with h
        exact .inr (.inr (.inl ⟨a, es, he, hc, h.symm⟩))
      | some i =>
        rw [hc] at h
        obtain ⟨rfl, off, rfl, ho⟩ := command?_eq_some a i hc
        injection h with h
        have : off = 0x004#12 := BitVec.eq_of_toNat_eq (by simpa using ho)
        subst this
        exact .inr (.inr (.inr (.inl ⟨es, he, h.symm⟩)))
    | hardwareReset =>
      simp only [step, nextAction, he] at h
      injection h with h
      exact .inr (.inr (.inr (.inr ⟨es, rfl, h.symm⟩)))

theorem configure_reply (ty : BitVec 3) (s : State) (r : Reply) :
    configure ty { s with reply := r } = { configure ty s with reply := r } := by
  unfold configure
  cases formatRow ty with
  | none => rfl
  | some f =>
    by_cases h : s.encKeyLen.toNat > Config.keyMax ∨ s.intKeyLen.toNat > Config.keyMax
    · simp only [if_pos h]; exact if_pos h
    · simp only [if_neg h]; exact if_neg h

theorem openToken_reply (f : Format) (s : State) (r : Reply) :
    openToken f { s with reply := r } = { openToken f s with reply := r } := by
  unfold openToken
  dsimp only [State.input]
  generalize ctEqual4 _ _ = c
  cases c <;> simp only [Bool.false_eq_true, if_false, if_true, raise, complete]

theorem decrypt_reply (s : State) (r : Reply) : decrypt { s with reply := r } = { decrypt s with reply := r } := by
  unfold decrypt
  by_cases hk : s.lifecycle = .keyed
  · rw [if_neg (not_not_intro hk), if_neg (not_not_intro hk)]
    dsimp only
    cases formatRow s.actType with
    | none => rfl
    | some f =>
      dsimp only
      by_cases hl : s.inLen.toNat = f.messageLen
      · rw [if_neg (not_not_intro hl), ← openToken_reply]
        exact if_neg (not_not_intro hl)
      · rw [if_pos hl]
        exact if_pos hl
  · rw [if_pos hk, if_pos hk]; rfl

theorem encrypt_reply (s : State) (r : Reply) : encrypt { s with reply := r } = { encrypt s with reply := r } := by
  unfold encrypt
  by_cases hk : s.lifecycle = .keyed
  · rw [if_neg (not_not_intro hk), if_neg (not_not_intro hk)]
    dsimp only
    cases formatRow s.actType with
    | none => rfl
    | some f =>
      dsimp only
      by_cases hv : s.ivLen.toNat = Config.ivLen
      · rw [if_neg (not_not_intro hv)]
        by_cases hl : s.inLen.toNat = f.payloadLen
        · rw [if_neg (not_not_intro hl)]
          refine (if_neg (not_not_intro hv)).trans ((if_neg (not_not_intro hl)).trans ?_)
          simp only [sealToken, State.input, State.initVector, complete]
        · rw [if_pos hl]
          exact (if_neg (not_not_intro hv)).trans (if_pos hl)
      · rw [if_pos hv]
        exact if_pos hv
  · rw [if_pos hk, if_pos hk]; rfl

/-- No command looks at the bus's last answer or changes it. -/
theorem exec_reply (i : Instr) (s t : State) (r : Reply) (h : exec i s = .next t) :
    exec i { s with reply := r } = .next { t with reply := r } := by
  cases i with
  | nop => injection h with h; subst h; rfl
  | configure ty => injection h with h; subst h; rw [exec_configure, configure_reply]
  | decrypt => injection h with h; subst h; rw [exec_decrypt, decrypt_reply]
  | encrypt => injection h with h; subst h; rw [exec_encrypt, encrypt_reply]
  | release => rw [exec_release] at h ⊢; injection h with h; subst h; rfl
  | sreset => injection h with h; subst h; rfl

end Sys2Proof.Machine
end

