-- ==== Sys2Proof/Laws/HostProgram.lean ====
section
/-! SUPPORT. What a host does at each statement, and what one turn of a session can do, said once. -/

namespace Sys2Proof.Machine

@[simp] theorem HostRun.access?_wr (off : Offset) (v : Word) (c : List Stmt) (r : List Word) :
    HostRun.access? ⟨.wr off v :: c, r⟩ = some (.write off 4 v) := rfl
@[simp] theorem HostRun.access?_wrName (off : Offset) (k : Nat) (c : List Stmt) (r : List Word) :
    HostRun.access? ⟨.wrName off k :: c, r⟩ = some (.write off 4 (r.getD k (Config.unreadName k))) := rfl
@[simp] theorem HostRun.access?_rd (off : Offset) (c : List Stmt) (r : List Word) :
    HostRun.access? ⟨.rd off :: c, r⟩ = some (.read off 4) := rfl
@[simp] theorem HostRun.access?_wait (c : List Stmt) (r : List Word) :
    HostRun.access? ⟨.wait :: c, r⟩ = some (.read 0x008#12 4) := rfl
@[simp] theorem HostRun.access?_nil (r : List Word) : HostRun.access? ⟨[], r⟩ = none := rfl

@[simp] theorem HostRun.answered_wr (off : Offset) (v : Word) (c : List Stmt) (r : List Word) (a : Reply) :
    HostRun.answered ⟨.wr off v :: c, r⟩ a = ⟨c, r⟩ := rfl
@[simp] theorem HostRun.answered_wrName (off : Offset) (k : Nat) (c : List Stmt) (r : List Word) (a : Reply) :
    HostRun.answered ⟨.wrName off k :: c, r⟩ a = ⟨c, r⟩ := rfl
@[simp] theorem HostRun.answered_rd (off : Offset) (c : List Stmt) (r : List Word) (v : Word) :
    HostRun.answered ⟨.rd off :: c, r⟩ (.data v) = ⟨c, r ++ [v]⟩ := rfl

/-- A refused `RD` keeps its number (log 13). -/
@[simp] theorem HostRun.answered_rd_refused (off : Offset) (c : List Stmt) (r : List Word) (o : Offset) (d : Direction) :
    HostRun.answered ⟨.rd off :: c, r⟩ (.busError o d) = ⟨c, r ++ [Config.unreadName r.length]⟩ := rfl

/-- A string that a LEN field can hold is declared with its own length. -/
theorem lenField_toNat (bs : List Byte) (h : bs.length ≤ 255) : (lenField bs).toNat = bs.length := by
  rw [lenField, if_pos h]; simp; omega

/-- A key that a host writes fits its staging window (R40, R137). -/
theorem hostKey_length (k : List Byte) : (hostKey k).length ≤ 64 := by
  unfold hostKey Config.keyMax
  split
  · assumption
  · simp

/-- A key that fits is written as it is. -/
theorem hostKey_of_le (k : List Byte) (h : k.length ≤ 64) : hostKey k = k := if_pos h

/-- A WAIT goes on while the word it read has BUSY = 1, and is over when BUSY = 0 (R117). -/
theorem HostRun.answered_wait (c : List Stmt) (r : List Word) (v : Word) :
    HostRun.answered ⟨.wait :: c, r⟩ (.data v) = if v.getLsbD 0 then ⟨.wait :: c, r⟩ else ⟨c, r⟩ := rfl

/-- A host's turn: its access is one step of the block, whose answer the host takes. -/
theorem Session.turn_host (x : Session) (a : Access) (t : State) (ha : x.host.access? = some a)
    (hs : step { x.block with events := [.bus a] } = .next t) : x.turn .host = .next ⟨t, x.host.answered t.reply⟩ := by
  simp only [Session.turn, ha, Session.feed, hs]

/-- A host at the end of its program makes no access. -/
theorem Session.turn_host_done (x : Session) (ha : x.host.access? = none) : x.turn .host = .next x := by
  simp only [Session.turn, ha]

/-- The engine's turn is one step of the block. -/
theorem Session.turn_engine (x : Session) (t : State) (hs : step { x.block with events := [.engine] } = .next t) :
    x.turn .engine = .next { x with block := t } := by
  simp only [Session.turn, Session.feed, hs]

/-- A schedule begins with its first turn. -/
theorem Session.run_cons (c : Turn) (cs : List Turn) (x y : Session) (h : x.turn c = .next y) :
    Session.run (c :: cs) x = Session.run cs y := by
  simp only [Session.run, h]

/-- Bit 0 of the STATUS word is BUSY (R25). -/
@[simp] theorem statusWord_busy (s : State) : s.statusWord.getLsbD 0 = s.busy := by
  have h : ∀ b : Bool, (bitWord b).getLsbD 0 = b := by decide
  simp only [State.statusWord, BitVec.getLsbD_or, BitVec.getLsbD_shiftLeft, h]
  simp

/-- A read of STATUS answers the STATUS word and changes nothing else (R180, R181). -/
theorem step_readStatus (s : State) :
    step { s with events := [.bus (.read 0x008#12 4)] } = .next { s with events := [], reply := .data s.statusWord } := by
  rw [step_hostAccess { s with events := [.bus (.read 0x008#12 4)] } (.read 0x008#12 4) [] rfl rfl]
  have ht : accessTarget? 0x008#12 4 = some .status := by decide
  simp only [hostAccess, ht, regRead_status]
  rfl

end Sys2Proof.Machine
end

