-- ==== Sys2Proof/Laws/PerInstr.lean ====
section
/-! SUPPORT. The families of statements made per instruction. -/

namespace Sys2Proof.Laws

/-- The word of every command passes the spec's own check of a valid word (R105). -/
def EncodeValid.Statement (i : Instr) : Prop := validWord (encode i) = true

theorem EncodeValid.nop : EncodeValid.Statement .nop := by unfold EncodeValid.Statement; decide

theorem EncodeValid.configure (type : BitVec 3) : EncodeValid.Statement (.configure type) := by
  unfold EncodeValid.Statement
  revert type
  decide

theorem EncodeValid.decrypt : EncodeValid.Statement .decrypt := by unfold EncodeValid.Statement; decide

theorem EncodeValid.encrypt : EncodeValid.Statement .encrypt := by unfold EncodeValid.Statement; decide

theorem EncodeValid.release : EncodeValid.Statement .release := by unfold EncodeValid.Statement; decide

theorem EncodeValid.sreset : EncodeValid.Statement .sreset := by unfold EncodeValid.Statement; decide

end Sys2Proof.Laws
end

