-- ==== Sys2Proof/Tests/Slice0.lean ====
section
/-! SUPPORT. Tests against the spec's own vectors (95_test_vectors.md, named V<n>), and a witness for every statement that has
hypotheses. -/

namespace Sys2Proof.Tests

open Sys2Proof Sys2Proof.Machine

/-! ### Helpers -/

/-- The byte string of a list of big-endian words (the notation of 95_test_vectors.md). -/
def bytesOf (ws : List Word) : List Byte := ws.flatMap be32

/-- `EK` of the common data. -/
def ek : List Byte := bytesOf [0xb08c70cf#32, 0xbcb0eb6c#32, 0xab7e82c6#32, 0xb75da520#32,
  0x72ae62b2#32, 0xbf4b990b#32, 0xb80a48d8#32, 0x141eec07#32]

/-- `IK` of the common data. -/
def ik : List Byte := bytesOf [0xbf77ec55#32, 0xc30130c1#32, 0xd8cd1862#32, 0xed2a4cd2#32,
  0xc76ac33b#32, 0xc0c4ce8a#32, 0x3d3bbd3a#32, 0xd5687792#32]

/-- `IV0` of the common data. -/
def iv0 : List Byte := bytesOf [0x386e3ac0#32, 0x000c0a08#32, 0x01234567#32, 0x89abcdef#32]

/-- The payload 00 .. 0f of V1. -/
def payload1 : List Byte := bytesOf [0x00010203#32, 0x04050607#32, 0x08090a0b#32, 0x0c0d0e0f#32]

/-- The token of V1, its fifth word and its tag word given. -/
def token (c tag : Word) : List Byte :=
  iv0 ++ bytesOf [c, 0x573fbf46#32, 0x45ef060b#32, 0x17a667a6#32, tag]

/-- "KEYED" under the fixture keys with a type code (V40). -/
def keyed (t : BitVec 3) : State :=
  { State.reset with lifecycle := .keyed, actType := t, actEncKey := ek, actIntKey := ik, lastOp := 0x1#4, intStatus := 0b001#3 }

/-- The start state of V1, with its token's fifth word and tag word given. -/
def loaded (c tag : Word) : State := { keyed 0#3 with dataIn := Memory.ofBytes (token c tag), len := 0x00000024#32, lastOp := 0x2#4 }

/-- The start state of V2. -/
def plain : State :=
  { keyed 0#3 with dataIn := Memory.ofBytes payload1, ivBuf := Memory.ofBytes iv0, len := 0x00001010#32, lastOp := 0x3#4 }

/-- A command in flight in a state, with the inputs to come. -/
def inFlight (s : State) (op : BitVec 4) (t : BitVec 3) (es : List Event) : State :=
  { s with busy := true, lastOp := op, pendOp := op, pendType := t, events := es }

/-- The state an outcome carries. -/
def nextOf : Host.Outcome State Fault Refusal → Option State
  | .next t => some t
  | _ => none

/-- An outcome is a next state with the property. -/
def nextHas (o : Host.Outcome State Fault Refusal) (p : State → Bool) : Bool := (nextOf o).any p

theorem of_nextHas (o : Host.Outcome State Fault Refusal) (p : State → Bool) (h : nextHas o p = true) :
    ∃ (t : State), o = .next t ∧ p t = true := by
  cases o with
  | next t => exact ⟨t, rfl, h⟩
  | fault r => cases h
  | refused r => cases h

/-! ### WellFormed smoke tests: each check refuses an ill-formed word (R105, R107, R108, R110) -/

theorem test_validWord_refuses_reserved_bit_7 : validWord 0x00000081#32 = false := by decide
theorem test_validWord_refuses_reserved_bit_31 : validWord 0x8000000F#32 = false := by decide
theorem test_validWord_refuses_reserved_opcodes : ∀ op : BitVec 4, 0x5 ≤ op.toNat → op.toNat ≤ 0xE →
    validWord (0#28 ++ op) = false := by decide
theorem test_validWord_refuses_misplaced_type : ∀ t : BitVec 3, t ≠ 0#3 →
    ∀ op ∈ [0x0#4, 0x2#4, 0x3#4, 0x4#4, 0xF#4], validWord (0#25 ++ t ++ op) = false := by decide
theorem test_validWord_accepts_configure_7 : validWord 0x00000071#32 = true := by decide

/-! ### Decoding: words written out field by field, RSVD, TYPE, OP (R101, R102), with every cause of refusal (R106) -/

theorem test_decode_nop : decode (0b0000000000000000000000000#25 ++ 0b000#3 ++ 0b0000#4) = .ok .nop := by decide
theorem test_decode_configure :
    decode (0b0000000000000000000000000#25 ++ 0b011#3 ++ 0b0001#4) = .ok (.configure 0b011#3) := by decide
theorem test_decode_decrypt : decode (0b0000000000000000000000000#25 ++ 0b000#3 ++ 0b0010#4) = .ok .decrypt := by decide
theorem test_decode_encrypt : decode (0b0000000000000000000000000#25 ++ 0b000#3 ++ 0b0011#4) = .ok .encrypt := by decide
theorem test_decode_release : decode (0b0000000000000000000000000#25 ++ 0b000#3 ++ 0b0100#4) = .ok .release := by decide
theorem test_decode_sreset : decode (0b0000000000000000000000000#25 ++ 0b000#3 ++ 0b1111#4) = .ok .sreset := by decide
theorem test_decode_bit_7 : decode 0x00000081#32 = .error .reservedBits := by decide
theorem test_decode_opcode_5 : decode 0x00000005#32 = .error .reservedOpcode := by decide
theorem test_decode_decrypt_with_type : decode 0x00000012#32 = .error .misplacedType := by decide
theorem test_decodeTableWord : decodeTableWord 32 0x31 = some (.configure 3#3) ∧ decodeTableWord 32 0x1F = none := by decide

/-! ### Primitives (V20 to V28) -/

/-- V20: "abc". -/
theorem test_sha1_abc : sha1 [0x61#8, 0x62#8, 0x63#8] =
    bytesOf [0xa9993e36#32, 0x4706816a#32, 0xba3e2571#32, 0x7850c26c#32, 0x9cd0d89d#32] := by decide +kernel

/-- V22: 56 bytes, two blocks. -/
theorem test_sha1_two_blocks : sha1 (bytesOf [0x61626364#32, 0x62636465#32, 0x63646566#32, 0x64656667#32, 0x65666768#32,
    0x66676869#32, 0x6768696a#32, 0x68696a6b#32, 0x696a6b6c#32, 0x6a6b6c6d#32, 0x6b6c6d6e#32, 0x6c6d6e6f#32, 0x6d6e6f70#32,
    0x6e6f7071#32]) = bytesOf [0x84983e44#32, 0x1c3bd26e#32, 0xbaae4aa1#32, 0xf95129e5#32, 0xe54670f1#32] := by decide +kernel

/-- V24: key "Jefe", message "what do ya want for nothing?". -/
theorem test_hmac_jefe : hmacSha1 (bytesOf [0x4a656665#32]) (bytesOf [0x77686174#32, 0x20646f20#32, 0x79612077#32,
    0x616e7420#32, 0x666f7220#32, 0x6e6f7468#32, 0x696e673f#32]) =
    bytesOf [0xeffcdf6a#32, 0xe5eb2fa2#32, 0xd27416d5#32, 0xf184df9c#32, 0x259a7c79#32] := by decide +kernel

/-- V28: the digest that stands for a 65-byte key. -/
theorem test_sha1_of_long_key : sha1 ((List.range 65).map (BitVec.ofNat 8)) =
    bytesOf [0x69bd728a#32, 0xd6e13cd7#32, 0x6ff19751#32, 0xfde427b0#32, 0x0e395746#32] := by decide +kernel

/-- V25. -/
theorem test_keystreamPad : keystreamPad ek iv0 =
    bytesOf [0xe98dcb45#32, 0x533ab941#32, 0x4de60c00#32, 0x1bab69a9#32, 0xea63f9d1#32] := by decide +kernel

/-- V26. -/
theorem test_integrityTag : integrityTag ik payload1 iv0 = bytesOf [0x17c66bcb#32] := by decide +kernel

/-- V27. -/
theorem test_ctEqual4 : ctEqual4 (bytesOf [0x17c66bcb#32]) (bytesOf [0x17c66bcb#32]) = true ∧
    ctEqual4 (bytesOf [0x17c66bcb#32]) (bytesOf [0x17c66bca#32]) = false ∧
    ctEqual4 (bytesOf [0x17c66bcb#32]) (bytesOf [0x97c66bcb#32]) = false ∧
    ctEqual4 (bytesOf [0x00000000#32]) (bytesOf [0xffffffff#32]) = false := by decide

/-! ### Commands, one step each -/

/-- V70: NOP as the first command after reset. -/
theorem test_nop_from_reset : nextHas (step (State.reset.withFetchWord 32 0x00000000))
    (fun t => t.statusWord == 0x00000000#32 && t.intStatus == 0b001#3) = true := by decide

/-- V40: CONFIGURE HYPERLOCAL with 32-byte keys. -/
theorem test_configure_hyperlocal : nextHas
    (step (State.withFetchWord { State.reset with
      encKeyStage := Memory.ofBytes ek, intKeyStage := Memory.ofBytes ik, len := 0x20200000#32 } 32 0x00000031))
    (fun t => t.statusWord == 0x00001036#32 && t.intStatus == 0b001#3 && t.actEncKey == ek && t.actIntKey == ik) = true := by
  decide +kernel

/-- V44: CONFIGURE 5 with ek = 65 reports the type, not the key length, and keeps the configuration. -/
theorem test_configure_checks_the_type_first : nextHas
    (step (State.withFetchWord { keyed 3#3 with len := 0x20410000#32, intStatus := 0#3 } 32 0x00000051))
    (fun t => t.statusWord == 0x00001136#32 && t.intStatus == 0b011#3) = true := by decide +kernel

/-- V1: the fixture decrypts. -/
theorem test_decrypt_fixture : nextHas (exec .decrypt (loaded 0xe98cc946#32 0x17c66bcb#32))
    (fun t => t.statusWord == 0x00102006#32 && t.dataOut == Memory.ofBytes payload1) = true := by decide +kernel

/-- V13: one ciphertext bit flipped, the earlier payload still in DATA_OUT. -/
theorem test_decrypt_tampered : nextHas
    (exec .decrypt { loaded 0xe88cc946#32 0x17c66bcb#32 with dataOut := Memory.ofBytes payload1, outLen := 16#8 })
    (fun t => t.statusWord == 0x00102506#32 && t.dataOut == Memory.ofBytes payload1 && t.intStatus == 0b011#3) = true := by
  decide +kernel

/-- V2: the fixture is reproduced. -/
theorem test_encrypt_fixture : nextHas (exec .encrypt plain)
    (fun t => t.statusWord == 0x00243006#32 && t.dataOut == Memory.ofBytes (token 0xe98cc946#32 0x17c66bcb#32)) = true := by
  decide +kernel

/-- V67: both lengths wrong reports the IV length. -/
theorem test_encrypt_checks_the_iv_first : nextHas (exec .encrypt { plain with len := 0x00000F11#32 })
    (fun t => t.statusWord == 0x00003306#32) = true := by decide +kernel

/-- V71: RELEASE after V1. -/
theorem test_release : nextHas (step (State.withFetchWord
      { loaded 0xe98cc946#32 0x17c66bcb#32 with dataOut := Memory.ofBytes payload1, outLen := 16#8 } 32 0x00000004))
    (fun t => t.statusWord == 0x00004008#32 && t.intStatus == 0b001#3 && t.dataIn == [] && t.dataOut == [] &&
      t.len == 0#32) = true := by decide +kernel

/-- V77: SRESET with a DECRYPT in flight. -/
theorem test_sreset_while_busy : nextHas
    (step (State.withFetchWord { inFlight (loaded 0xe98cc946#32 0x17c66bcb#32) 0x2#4 0#3 [] with intEnable := 0b111#3 } 32 0x0F))
    (fun t => t == { State.reset with reply := .written }) = true := by decide +kernel

/-- V51, V52, V66, V42: the numbers of NotConfigured, BadMessageLength, BadPlainLength and BadKeyLength in STATUS. -/
theorem test_error_numbers :
    nextHas (step (State.withFetchWord State.reset 32 0x00000002)) (fun t => t.statusWord == 0x00002600#32) = true ∧
    nextHas (step (State.withFetchWord { loaded 0xe98cc946#32 0x17c66bcb#32 with len := 0x00000023#32 } 32 0x00000002))
      (fun t => t.statusWord == 0x00002206#32) = true ∧
    nextHas (step (State.withFetchWord { plain with len := 0x0000100F#32 } 32 0x00000003))
      (fun t => t.statusWord == 0x00003406#32) = true ∧
    nextHas (step (State.withFetchWord { State.reset with len := 0x20410000#32 } 32 0x00000001))
      (fun t => t.statusWord == 0x00001700#32) = true := by decide +kernel

/-! ### Host accesses and issue, one step each -/

/-- V72: an illegal word while idle. -/
theorem test_refused_word : nextHas (step { State.reset with events := [wr 0x004#12 0x00000005#32] })
    (fun t => t.statusWord == 0x00005800#32 && t.intStatus == 0b011#3 && t.busy == false) = true := by decide

/-- V78: a word that is SRESET but for one bit, while busy. -/
theorem test_near_sreset_dropped : nextHas (step (inFlight (keyed 0#3) 0x2#4 0#3 [wr 0x004#12 0x0000001F#32]))
    (fun t => t.intStatus == 0b101#3 && t.lastOp == 0x2#4 && t.busy) = true := by decide +kernel

/-- V39: STATUS read while a DECRYPT is in flight. -/
theorem test_status_while_busy : nextHas (step (inFlight (keyed 0#3) 0x2#4 0#3 [rd 0x008#12]))
    (fun t => t.reply == .data 0x00002007#32) = true := by decide +kernel

/-- V32: DATA_IN[0] is packed big-endian. -/
theorem test_buffer_write : nextHas (step { State.reset with events := [wr 0x1C0#12 0x386e3ac0#32] })
    (fun t => t.dataIn == [(0, 0x38#8), (1, 0x6e#8), (2, 0x3a#8), (3, 0xc0#8)]) = true := by decide

/-- V33: a 16-bit read of STATUS. -/
theorem test_bus_error : nextHas (step { State.reset with events := [.bus (.read 0x008#12 2)] })
    (fun t => t == { State.reset with reply := .busError 0x008#12 .read }) = true := by decide

/-- V36: write 1 to clear. -/
theorem test_write_one_to_clear : nextHas
    (step { State.reset with intStatus := 0b011#3, events := [wr 0x00C#12 0x00000002#32] })
    (fun t => t.intStatus == 0b001#3) = true := by decide

/-- V83: enabling a pending WERR raises irq at once, BUSY or not. -/
theorem test_irq_rises : nextHas
    (step { inFlight State.reset 0x0#4 0#3 [wr 0x010#12 0x00000004#32] with intStatus := 0b101#3 })
    (fun t => t.irq && t.busy) = true := by decide

/-! ### Host programs -/

/-- P1 reads four words of DATA_OUT after the STATUS word of V1; P3 reads none after that of V13. -/
theorem test_readsOf : readsOf 0x00102006#32 = [.rd 0x200#12, .rd 0x204#12, .rd 0x208#12, .rd 0x20C#12] ∧
    readsOf 0x00102506#32 = [] := by decide

/-- A WAIT goes on after BUSY = 1 (V39's STATUS) and is over after BUSY = 0. -/
theorem test_wait : HostRun.answered ⟨[.wait, .rd 0x008#12], []⟩ (.data 0x00002007#32) = ⟨[.wait, .rd 0x008#12], []⟩ ∧
    HostRun.answered ⟨[.wait, .rd 0x008#12], []⟩ (.data 0x00102006#32) = ⟨[.rd 0x008#12], []⟩ := by decide

/-- P2's price: 00000000 00124f80 is 1200000 micros, after a STATUS word that says eight bytes. -/
theorem test_priceMicros : HostRun.priceMicros? ⟨[], [0x00082026#32, 0x00000000#32, 0x00124f80#32]⟩ 0 = some 1200000 := by decide

/-! ### Witnesses: concrete states and operands that meet the hypotheses of each statement, clause by clause -/

/-- ResetLeavesTheResetValues. -/
theorem witness_hardwareReset : ∃ (s : State) (es : List Event), s.events = .hardwareReset :: es ∧ s.busy = true :=
  ⟨inFlight (keyed 0#3) 0x2#4 0#3 [.hardwareReset], [], rfl, rfl⟩

/-- SresetWriteEqualsHardwareReset, SresetWriteRunsSreset, and a clause of WritesAcceptedWhileBusy. -/
theorem witness_sresetMoves : ∃ (s : State) (es : List Event), SresetMoves s es ∧ s.busy = true :=
  ⟨inFlight (keyed 0#3) 0x2#4 0#3 [wr 0x004#12 0x0000000F#32], [], rfl, rfl⟩

/-- EngineRunsTheCommandInFlight, with inputs to come and without. -/
theorem witness_engineMoves :
    (∃ (s : State) (es : List Event) (i : Instr),
        EngineMoves s es ∧ s.busy = true ∧ decode (commandWord s.pendOp s.pendType) = .ok i ∧ i ≠ .sreset ∧ es ≠ []) ∧
    (∃ (s : State) (es : List Event) (i : Instr),
        EngineMoves s es ∧ s.busy = true ∧ decode (commandWord s.pendOp s.pendType) = .ok i ∧ i ≠ .sreset ∧
      s.events = []) :=
  ⟨⟨inFlight State.reset 0x1#4 7#3 [.engine, rd 0x008#12], [rd 0x008#12], .configure 7#3, .inr rfl, rfl, by decide, by decide,
      by decide⟩,
    ⟨inFlight State.reset 0x4#4 0#3 [], [], .release, .inl ⟨rfl, rfl⟩, rfl, by decide, by decide, rfl⟩⟩

/-- EngineRunsTheCommandInFlight, its idle clause, with the engine named and with no input left. -/
theorem witness_engineIdle :
    (∃ (s : State) (es : List Event), EngineMoves s es ∧ s.busy = false ∧ s.events ≠ []) ∧
    (∃ (s : State) (es : List Event), EngineMoves s es ∧ s.busy = false ∧ s.events = []) :=
  ⟨⟨{ State.reset with events := [.engine] }, [], .inr rfl, rfl, by decide⟩, ⟨State.reset, [], .inl ⟨rfl, rfl⟩, rfl, rfl⟩⟩

/-- PlacedCommandRunsNext, for the engine's commands and for SRESET. -/
theorem witness_decodes : decode 0x00000071#32 = .ok (.configure 7#3) ∧ decode 0x0000000F#32 = .ok .sreset := by decide

/-- IdleCommandWriteIssuesOrRefuses, both clauses. -/
theorem witness_idleCommandWrite :
    (∃ (s : State) (es : List Event),
        HostMoves s (.write 0x004#12 4 0x00000071#32) es ∧ s.busy = false ∧ validWord 0x00000071#32 = true ∧
      0x00000071#32 ≠ 0x0000000F#32) ∧
    (∃ (s : State) (es : List Event),
        HostMoves s (.write 0x004#12 4 0x00000081#32) es ∧ s.busy = false ∧ validWord 0x00000081#32 = false ∧
      0x00000081#32 ≠ 0x0000000F#32) :=
  ⟨⟨{ State.reset with events := [wr 0x004#12 0x00000071#32] }, [], rfl, rfl, by decide, by decide⟩,
    ⟨{ State.reset with events := [wr 0x004#12 0x00000081#32] }, [], rfl, rfl, by decide, by decide⟩⟩

/-- BusyGateDropsWrites, at the first and the last offset of each clause. -/
theorem witness_busyGate : ∀ off ∈ [0x004#12, 0x014#12, 0x100#12, 0x13C#12, 0x140#12, 0x18C#12, 0x1C0#12, 0x1FC#12],
    off.toNat % 4 = 0 ∧
      ((off.toNat = 0x004 ∧ 0x0000001F#32 ≠ 0x0000000F#32) ∨ off.toNat = 0x014 ∨ (0x100 ≤ off.toNat ∧ off.toNat < 0x190) ∨
        (0x1C0 ≤ off.toNat ∧ off.toNat < 0x200)) ∧
      ∃ (s : State) (es : List Event), HostMoves s (.write off 4 0x0000001F#32) es ∧ s.busy = true := by
  simp only [List.forall_mem_cons, List.not_mem_nil, false_implies, implies_true, and_true]
  refine ⟨?_, ?_, ?_, ?_, ?_, ?_, ?_, ?_⟩ <;>
    exact ⟨by decide, by decide, inFlight State.reset 0x0#4 0#3 [wr _ 0x0000001F#32], [], rfl, rfl⟩

/-- WritesAcceptedWhileBusy, while busy and while idle; its SRESET clause has witness_sresetMoves. -/
theorem witness_acceptedWhileBusy : ∀ b : Bool, ∀ off ∈ [0x00C#12, 0x010#12],
    ∃ (s : State) (es : List Event), s.busy = b ∧ HostMoves s (.write off 4 0x7#32) es :=
  fun b off _ => ⟨{ State.reset with busy := b, events := [wr off 0x7#32] }, [], rfl, rfl⟩

/-- ReadOnlyAndWriteOnlyRegisters: the writes, then the reads, at the ends of each range. -/
theorem witness_readOnly :
    (∀ off ∈ [0x000#12, 0x008#12, 0x200#12, 0x23C#12], off.toNat % 4 = 0 ∧
      (off.toNat = 0x000 ∨ off.toNat = 0x008 ∨ (0x200 ≤ off.toNat ∧ off.toNat < 0x240)) ∧
      (∃ (s : State) (es : List Event), HostMoves s (.write off 4 0xFFFFFFFF#32) es)) ∧
    (∀ off ∈ [0x004#12, 0x100#12, 0x17C#12], off.toNat % 4 = 0 ∧
      (off.toNat = 0x004 ∨ (0x100 ≤ off.toNat ∧ off.toNat < 0x180)) ∧
      (∃ (s : State) (es : List Event), HostMoves s (.read off 4) es)) := by
  simp only [List.forall_mem_cons, List.not_mem_nil, false_implies, implies_true, and_true]
  refine ⟨⟨?_, ?_, ?_, ?_⟩, ⟨?_, ?_, ?_⟩⟩ <;> refine ⟨by decide, by decide, ?_⟩
  iterate 4 exact ⟨{ State.reset with events := [wr _ 0xFFFFFFFF#32] }, [], rfl⟩
  all_goals exact ⟨{ State.reset with events := [rd _] }, [], rfl⟩

/-- BusErrorsChangeNothing: a wrong size, a misaligned offset, the ends of each gap; then the ends of each mapped range. -/
theorem witness_busErrors :
    (∀ p ∈ [(0x008#12, 2), (0x00A#12, 4), (0x018#12, 4), (0x0FC#12, 4), (0x190#12, 4), (0x1BC#12, 4), (0x240#12, 4), (0xFFC#12, 4)],
      (p.2 ≠ 4 ∨ p.1.toNat % 4 ≠ 0 ∨ (0x018 ≤ p.1.toNat ∧ p.1.toNat ≤ 0x0FF) ∨
        (0x190 ≤ p.1.toNat ∧ p.1.toNat ≤ 0x1BF) ∨ 0x240 ≤ p.1.toNat) ∧
      (∃ (s : State) (es : List Event), HostMoves s (.read p.1 p.2) es) ∧
      (∃ (s : State) (es : List Event), HostMoves s (.write p.1 p.2 1#32) es)) ∧
    (∀ off ∈ [0x000#12, 0x014#12, 0x100#12, 0x18C#12, 0x1C0#12, 0x23C#12], off.toNat % 4 = 0 ∧
      (off.toNat < 0x018 ∨ (0x100 ≤ off.toNat ∧ off.toNat < 0x190) ∨ (0x1C0 ≤ off.toNat ∧ off.toNat < 0x240)) ∧
      (∃ (s : State) (es : List Event), HostMoves s (.read off 4) es) ∧
      (∃ (s : State) (es : List Event), HostMoves s (.write off 4 1#32) es)) := by
  simp only [List.forall_mem_cons, List.not_mem_nil, false_implies, implies_true, and_true]
  refine ⟨⟨?_, ?_, ?_, ?_, ?_, ?_, ?_, ?_⟩, ⟨?_, ?_, ?_, ?_, ?_, ?_⟩⟩
  iterate 8 exact ⟨by decide, ⟨{ State.reset with events := [.bus (.read _ _)] }, [], rfl⟩,
    ⟨{ State.reset with events := [.bus (.write _ _ 1#32)] }, [], rfl⟩⟩
  all_goals exact ⟨by decide, by decide, ⟨{ State.reset with events := [rd _] }, [], rfl⟩,
    ⟨{ State.reset with events := [wr _ 1#32] }, [], rfl⟩⟩

/-- ReadsReturnTheRegisters: each single register, the last word of each window, and (above) the refused reads. -/
theorem witness_reads : ∀ off ∈ [0x000#12, 0x004#12, 0x008#12, 0x00C#12, 0x010#12, 0x014#12, BitVec.ofNat 12 (0x100 + 4 * 31),
    BitVec.ofNat 12 (0x180 + 4 * 3), BitVec.ofNat 12 (0x1C0 + 4 * 15), BitVec.ofNat 12 (0x200 + 4 * 15)],
    ∃ (s : State) (es : List Event), HostMoves s (.read off 4) es :=
  fun off _ => ⟨{ State.reset with events := [rd off] }, [], rfl⟩

/-- BufferWritesChangeFourBytes: the last word of each writable window, and LEN. -/
theorem witness_bufferWrites : ∀ off ∈ [BitVec.ofNat 12 (0x100 + 4 * 15), BitVec.ofNat 12 (0x140 + 4 * 15),
    BitVec.ofNat 12 (0x180 + 4 * 3), BitVec.ofNat 12 (0x1C0 + 4 * 15), 0x014#12],
    ∃ (s : State) (es : List Event), s.busy = false ∧ HostMoves s (.write off 4 0x01020304#32) es :=
  fun off _ => ⟨{ State.reset with events := [wr off 0x01020304#32] }, [], rfl, rfl⟩

/-- ReadReturnsTheWordWritten, at the ends of each range. -/
theorem witness_writeThenRead : ∀ off ∈ [0x014#12, 0x180#12, 0x18C#12, 0x1C0#12, 0x1FC#12],
    off.toNat % 4 = 0 ∧
      (off.toNat = 0x014 ∨ (0x180 ≤ off.toNat ∧ off.toNat < 0x190) ∨ (0x1C0 ≤ off.toNat ∧ off.toNat < 0x200)) ∧
      ∃ (s : State) (es : List Event), s.busy = false ∧
        s.events = .bus (.write off 4 0xDEADBEEF#32) :: .bus (.read off 4) :: es := by
  simp only [List.forall_mem_cons, List.not_mem_nil, false_implies, implies_true, and_true]
  refine ⟨?_, ?_, ?_, ?_, ?_⟩ <;>
    exact ⟨by decide, by decide, { State.reset with events := [wr _ 0xDEADBEEF#32, rd _] }, [], rfl, rfl⟩

/-- ReadReturnsTheWordWritten, its INT_ENABLE clause, while busy. -/
theorem witness_enableThenRead : ∃ (s : State) (es : List Event), s.busy = true ∧
    s.events = .bus (.write 0x010#12 4 0xFFFFFFFF#32) :: .bus (.read 0x010#12 4) :: es :=
  ⟨inFlight State.reset 0x0#4 0#3 [wr 0x010#12 0xFFFFFFFF#32, rd 0x010#12], [], rfl, rfl⟩

/-- PendingFlagsChangeOnlyAsStated: a bit that falls; DONE, ERR, then WERR that rise. -/
theorem witness_pendingFlags :
    (∃ (s : State) (t : State), step s = .next t ∧ s.intStatus.getLsbD 2 = true ∧ t.intStatus.getLsbD 2 = false) ∧
    (∃ (s : State) (t : State), step s = .next t ∧ s.intStatus.getLsbD 0 = false ∧ t.intStatus.getLsbD 0 = true) ∧
    (∃ (s : State) (t : State), step s = .next t ∧ s.intStatus.getLsbD 1 = false ∧ t.intStatus.getLsbD 1 = true) ∧
    (∃ (s : State) (t : State), step s = .next t ∧ s.intStatus.getLsbD 2 = false ∧ t.intStatus.getLsbD 2 = true) :=
  ⟨⟨{ State.reset with intStatus := 0b111#3, events := [wr 0x00C#12 0x4#32] }, _, rfl, by decide, by decide⟩,
    ⟨inFlight State.reset 0x0#4 0#3 [], _, rfl, by decide, by decide⟩,
    ⟨{ State.reset with events := [wr 0x004#12 0x5#32] }, _, rfl, by decide, by decide⟩,
    ⟨inFlight State.reset 0x0#4 0#3 [wr 0x014#12 0#32], _, rfl, by decide, by decide⟩⟩

/-- IrqFollowsPendingAndEnabled, clause by clause after the first. -/
theorem witness_irq :
    (∃ (i : Instr) (s : State) (t : State), i ≠ .sreset ∧ exec i s = .next t ∧ s.intEnable.getLsbD 0 = true) ∧
    (∃ (i : Instr) (s : State) (t : State),
        i ≠ .sreset ∧ exec i s = .next t ∧ t.errCode ≠ .ok ∧ s.intEnable.getLsbD 1 = true) ∧
    (∃ (s : State) (v : Word) (es : List Event), HostMoves s (.write 0x00C#12 4 v) es ∧ v.extractLsb' 0 3 = 0b111#3) ∧
    (∃ (s : State) (es : List Event), HostMoves s (.write 0x010#12 4 0#32) es) :=
  ⟨⟨.nop, { State.reset with intEnable := 0b001#3 }, _, by decide, rfl, by decide⟩,
    ⟨.decrypt, { State.reset with intEnable := 0b010#3 }, _, by decide, rfl, by decide, by decide⟩,
    ⟨{ State.reset with events := [wr 0x00C#12 0x7#32] }, 0x7#32, [], rfl, by decide⟩,
    ⟨{ State.reset with events := [wr 0x010#12 0#32] }, [], rfl⟩⟩

/-- EveryCommandCompletes: a command, and one that ends in an error. -/
theorem witness_completes : Instr.nop ≠ .sreset ∧ ∃ (t : State), exec .encrypt State.reset = .next t ∧ t.errCode ≠ .ok :=
  ⟨by decide, _, rfl, by decide⟩

/-- IssuedCommandRunsAtTheEnginesTurn and NopChangesOnlyTheStatus. -/
theorem witness_issueThenEngine : ∀ v ∈ [0x00000000#32, 0x00000071#32, 0x00000004#32], ∃ (s : State) (i : Instr) (es : List Event),
    s.events = .bus (.write 0x004#12 4 v) :: .engine :: es ∧ s.busy = false ∧ decode v = .ok i ∧ i ≠ .sreset := by
  intro v h
  simp only [List.mem_cons, List.not_mem_nil, or_false] at h
  rcases h with rfl | rfl | rfl
  · exact ⟨{ State.reset with events := [wr 0x004#12 0#32, .engine] }, .nop, [], rfl, rfl, by decide, by decide⟩
  · exact ⟨{ State.reset with events := [wr 0x004#12 0x71#32, .engine] }, .configure 7#3, [], rfl, rfl, by decide, by decide⟩
  · exact ⟨{ State.reset with events := [wr 0x004#12 4#32, .engine] }, .release, [], rfl, rfl, by decide, by decide⟩

/-- ConfigureCaseByCase: the first bad type; each key length just too long; both at the limit. -/
theorem witness_configure :
    4 ≤ (4#3).toNat ∧ (3#3).toNat < 4 ∧
    64 < ({ State.reset with len := 0x20410000#32 }.len.extractLsb' 16 8).toNat ∧
    64 < ({ State.reset with len := 0x41200000#32 }.len.extractLsb' 24 8).toNat ∧
    ({ State.reset with len := 0x40400000#32 }.len.extractLsb' 16 8).toNat ≤ 64 ∧
    ({ State.reset with len := 0x40400000#32 }.len.extractLsb' 24 8).toNat ≤ 64 := by decide

/-- DecryptDeliversThePayload: the state of V1, whose tag verifies. -/
theorem witness_decrypt : ∃ (s : State) (ml : Nat) (n : Nat),
    s.lifecycle = .keyed ∧ TypeLengths s.actType ml n ∧ (s.len.extractLsb' 0 8).toNat = ml ∧
    ∀ k < 4, (hmacSha1 s.actIntKey (((List.range n).map fun k => s.dataIn.byte (16 + k) ^^^
      (hmacSha1 s.actEncKey (s.dataIn.bytes 0 16)).getD k 0#8) ++ s.dataIn.bytes 0 16)).getD k 0#8 = s.dataIn.byte (16 + n + k) :=
  ⟨loaded 0xe98cc946#32 0x17c66bcb#32, 36, 16, rfl, by unfold TypeLengths; decide, by decide, by decide +kernel⟩

/-- DecryptErrorsInOrder: not KEYED; one byte short; the state of V15, whose last tag bit is flipped. -/
theorem witness_decryptErrors :
    State.reset.lifecycle ≠ .keyed ∧
    (∃ (s : State) (ml : Nat) (n : Nat),
        s.lifecycle = .keyed ∧ TypeLengths s.actType ml n ∧ (s.len.extractLsb' 0 8).toNat + 1 = ml ∧
      (s.len.extractLsb' 0 8).toNat ≠ ml) ∧
    (∃ (s : State) (ml : Nat) (n : Nat),
        s.lifecycle = .keyed ∧ TypeLengths s.actType ml n ∧ (s.len.extractLsb' 0 8).toNat = ml ∧
      ∃ k < 4, (hmacSha1 s.actIntKey (((List.range n).map fun k => s.dataIn.byte (16 + k) ^^^
        (hmacSha1 s.actEncKey (s.dataIn.bytes 0 16)).getD k 0#8) ++ s.dataIn.bytes 0 16)).getD k 0#8 ≠
          s.dataIn.byte (16 + n + k)) :=
  ⟨by decide,
    ⟨{ keyed 3#3 with len := 0x0000001F#32 }, 32, 12, rfl, by unfold TypeLengths; decide, by decide, by decide⟩,
    ⟨loaded 0xe98cc946#32 0x17c66bca#32, 36, 16, rfl, by unfold TypeLengths; decide, by decide, 3, by decide,
      by decide +kernel⟩⟩

/-- EncryptDeliversTheToken and RoundTripAndDeterminism: the state of V2. -/
theorem witness_encrypt : ∃ (s : State) (ml : Nat) (n : Nat), s.lifecycle = .keyed ∧ TypeLengths s.actType ml n ∧
    (s.len.extractLsb' 8 8).toNat = 16 ∧ (s.len.extractLsb' 0 8).toNat = n :=
  ⟨plain, 36, 16, rfl, by unfold TypeLengths; decide, by decide, by decide⟩

/-- EncryptErrorsInOrder: the IV one byte short, then the plaintext one byte long. -/
theorem witness_encryptErrors :
    (∃ (s : State) (ml : Nat) (n : Nat),
        s.lifecycle = .keyed ∧ TypeLengths s.actType ml n ∧ (s.len.extractLsb' 8 8).toNat ≠ 16) ∧
    (∃ (s : State) (ml : Nat) (n : Nat),
        s.lifecycle = .keyed ∧ TypeLengths s.actType ml n ∧ (s.len.extractLsb' 8 8).toNat = 16 ∧
      (s.len.extractLsb' 0 8).toNat ≠ n) :=
  ⟨⟨{ keyed 1#3 with len := 0x00000F08#32 }, 28, 8, rfl, by unfold TypeLengths; decide, by decide⟩,
    ⟨{ keyed 2#3 with len := 0x00001009#32 }, 28, 8, rfl, by unfold TypeLengths; decide, by decide, by decide⟩⟩

/-- RoundTripAndDeterminism, its inner hypotheses: the state of V1 holds the token that V2 gives. -/
theorem witness_roundTrip : ∃ (t : State), exec .encrypt plain = .next t ∧
    (let u := loaded 0xe98cc946#32 0x17c66bcb#32
    u.lifecycle = .keyed ∧ u.actType = plain.actType ∧ u.actEncKey = plain.actEncKey ∧ u.actIntKey = plain.actIntKey ∧
      (u.len.extractLsb' 0 8).toNat = 36 ∧ ∀ k < 36, u.dataIn.byte k = t.dataOut.byte k) := by
  obtain ⟨t, h, hp⟩ := of_nextHas (exec .encrypt plain)
    (fun t => (List.range 36).all fun k => (loaded 0xe98cc946#32 0x17c66bcb#32).dataIn.byte k == t.dataOut.byte k) (by decide +kernel)
  exact ⟨t, h, rfl, rfl, rfl, rfl, by decide, by simpa using hp⟩

/-- TamperedTagIsDetected: V1 and V15. -/
theorem witness_tamperedTag : ∃ (t : State), exec .decrypt (loaded 0xe98cc946#32 0x17c66bcb#32) = .next t ∧ t.errCode = .ok ∧
    (∀ k < 16 + 16, (loaded 0xe98cc946#32 0x17c66bca#32).dataIn.byte k = (loaded 0xe98cc946#32 0x17c66bcb#32).dataIn.byte k) ∧
    (∃ k < 4, (loaded 0xe98cc946#32 0x17c66bca#32).dataIn.byte (16 + 16 + k) ≠
      (loaded 0xe98cc946#32 0x17c66bcb#32).dataIn.byte (16 + 16 + k)) := by
  obtain ⟨t, h, hp⟩ := of_nextHas (exec .decrypt (loaded 0xe98cc946#32 0x17c66bcb#32)) (fun t => t.errCode == .ok)
    (by decide +kernel)
  exact ⟨t, h, by simpa using hp, by decide +kernel, 3, by decide, by decide +kernel⟩

/-- AppIdentifierAndPriceDecryptAlike: V54, a Price token under AppIdentifier. -/
theorem witness_appIdentifier : ∃ (s : State) (t : State),
    s.actType = 1#3 ∧ exec .decrypt s = .next t ∧ t.errCode = .ok := by
  obtain ⟨t, h, hp⟩ := of_nextHas (exec .decrypt { keyed 1#3 with
      dataIn := Memory.ofBytes (iv0 ++ bytesOf [0xe98dcb45#32, 0x5328f6c1#32, 0xde8e4231#32]), len := 0x0000001C#32 })
    (fun t => t.errCode == .ok) (by decide +kernel)
  exact ⟨_, t, rfl, h, by simpa using hp⟩

/-- A state with the invariants and a command in flight: EveryStepKeepsTheInvariants and TheBlockComesToRest. -/
theorem witness_blockInv : ∃ (s : State) (t : State), BlockInv s ∧ s.busy = true ∧ step s = .next t := by
  refine ⟨inFlight State.reset 0x1#4 0#3 [.engine], _, ?_, rfl, rfl⟩
  exact ⟨by decide, by decide, by decide, fun _ _ => rfl, fun _ _ => rfl, by decide, fun _ => ⟨.configure 0#3, by decide⟩,
    by decide⟩

/-- InvariantsOfEveryReachableState and ReachableStatesNeverStop: a reachable state that is not the reset state. -/
theorem witness_reachable : ∃ (s : State), Reachable s ∧ s.busy = true :=
  ⟨{ State.reset with busy := true, reply := .written, events := [] },
    .step _ _ (.reset [wr 0x004#12 0x00000000#32]) rfl, rfl⟩

/-- LifecycleChangesOnlyByCommandsAndReset, each of its three outcomes. -/
theorem witness_lifecycle : ∀ l, ∃ (s : State) (t : State),
    step s = .next t ∧ t.lifecycle ≠ s.lifecycle ∧ t.lifecycle = l := by
  intro l
  cases l with
  | unconfigured => exact ⟨{ keyed 0#3 with events := [.hardwareReset] }, _, rfl, by decide, rfl⟩
  | keyed => exact ⟨inFlight State.reset 0x1#4 3#3 [], _, rfl, by decide, rfl⟩
  | released => exact ⟨inFlight State.reset 0x4#4 0#3 [], _, rfl, by decide, rfl⟩

/-- InputsAreFrozenInFlight: a write while BUSY. -/
theorem witness_inFlight : ∃ (s : State) (t : State), step s = .next t ∧ s.busy = true ∧ t.busy = true :=
  ⟨inFlight State.reset 0x2#4 0#3 [wr 0x1C0#12 1#32], _, rfl, rfl, rfl⟩

/-- SecretsStayHidden: two different states alike but for the keys, CONFIGURE's completion next. -/
theorem witness_secrets : ∃ (s : State) (u : State) (t : State) (t' : State),
    SameButSecrets s u ∧ s ≠ u ∧ (∃ (es : List Event), EngineMoves s es) ∧ s.busy = true ∧
    s.pendingCommand ≠ some .decrypt ∧ s.pendingCommand ≠ some .encrypt ∧ step s = .next t ∧ step u = .next t' :=
  ⟨inFlight { State.reset with encKeyStage := [(0, 1#8)] } 0x1#4 0#3 [.engine],
    inFlight { State.reset with encKeyStage := [(0, 2#8)] } 0x1#4 0#3 [.engine], _, _, rfl, by decide, ⟨[], .inr rfl⟩, rfl,
    by decide, by decide, rfl, rfl⟩

/-- StagedKeysWaitForConfigure: two different states alike but for a staged key, DECRYPT's completion next. -/
theorem witness_staging : ∃ (s : State) (u : State) (t : State) (t' : State),
    SameButStaging s u ∧ s ≠ u ∧ (∃ (es : List Event), EngineMoves s es) ∧ s.busy = true ∧
    (∀ ty, s.pendingCommand ≠ some (.configure ty)) ∧ step s = .next t ∧ step u = .next t' :=
  ⟨inFlight { State.reset with encKeyStage := [(0, 1#8)] } 0x2#4 0#3 [.engine],
    inFlight { State.reset with encKeyStage := [(0, 2#8)] } 0x2#4 0#3 [.engine], _, _, rfl, by decide, ⟨[], .inr rfl⟩, rfl,
    by decide, rfl, rfl⟩

/-- EightCompressionsPerToken, for each payload length. -/
theorem witness_lengths : iv0.length = 16 ∧ ∀ n ∈ [16, 8, 12], (zeros n).length ∈ [16, 8, 12] := by decide

/-- LongKeyActsAsItsDigest: the shortest long key. -/
theorem witness_longKey : 64 < (zeros 65).length := by decide

/-- ComparatorIsEquality. -/
theorem witness_comparator : (bytesOf [0x17c66bcb#32]).length = 4 ∧ (bytesOf [0x17c66bca#32]).length = 4 := by decide

/-- XorTransformIsItsOwnInverse: the longest string a 20-byte pad covers. -/
theorem witness_xor : (zeros 20).length ≤ (zeros 20).length ∧ 0 < (zeros 20).length := by decide

/-- FormatTableRows: the first code without a row, in a type field and in a KEYED state. -/
theorem witness_noFormat : 4 ≤ (4#3).toNat ∧ (keyed 4#3).lifecycle = .keyed ∧ 4 ≤ (keyed 4#3).actType.toNat := by decide

/-- HostAddressReachesItsOffset: the first address past a window. -/
theorem witness_outsideTheWindow (k : Nat) : Config.baseAddr k + 4096 ≤ Config.baseAddr k + 4096 := Nat.le_refl _

/-- RunWaitsForTheCompletion. -/
theorem witness_run : State.reset.busy = false ∧ State.reset.events = [] ∧ Instr.decrypt ≠ .sreset := by decide

/-- ResultIsReadOnlyOnSuccess: STATUS after V13, and after V1. -/
theorem witness_result :
    ([0x00102506#32].getLast? = some 0x00102506#32 ∧ (0x00102506#32).extractLsb' 8 4 ≠ 0#4) ∧
    ([0x00102006#32].getLast? = some 0x00102006#32 ∧ (0x00102006#32).extractLsb' 8 4 = 0#4 ∧
      ((0x00102006#32).extractLsb' 16 8).toNat ≤ 64 ∧ 4 * 3 < ((0x00102006#32).extractLsb' 16 8).toNat) := by decide

/-- AcquireFromEveryState: from KEYED, the last type with a row, the longest key that is staged as it is and the shortest that is
not. -/
theorem witness_acquire : ∃ (s : State) (t : BitVec 3) (ek ik : List Byte), s.busy = false ∧ s.events = [] ∧
    s.lifecycle = .keyed ∧ t.toNat < 4 ∧ ek.length = 64 ∧ ik.length = 65 :=
  ⟨keyed 0#3, 3#3, zeros 64, zeros 65, rfl, rfl, rfl, by decide, by decide, by decide⟩

/-- AcquireForgetsTheCaseItStartsFrom, second clause: a reset block and one that is KEYED with other keys and a pending ERR, alike
in what CONFIGURE does not touch. -/
theorem witness_acquireForgets : ∃ (s : State) (v : State) (t : BitVec 3), t.toNat < 4 ∧
    s.busy = false ∧ s.events = [] ∧ v.busy = false ∧ v.events = [] ∧
    s.encKeyStage = v.encKeyStage ∧ s.intKeyStage = v.intKeyStage ∧ s.ivBuf = v.ivBuf ∧ s.dataIn = v.dataIn ∧
    s.dataOut = v.dataOut ∧ s.outLen = v.outLen ∧ s.scratch = v.scratch ∧
    s.lifecycle ≠ v.lifecycle ∧ s.actEncKey ≠ v.actEncKey ∧ s.intStatus ≠ v.intStatus :=
  ⟨State.reset, { State.reset with lifecycle := .keyed, actType := 2#3, actEncKey := [1#8], intStatus := 0b011#3 }, 3#3,
    by decide, rfl, rfl, rfl, rfl, rfl, rfl, rfl, rfl, rfl, rfl, rfl, by decide, by decide, by decide⟩

/-- AcquireForgetsTheCaseItStartsFrom, first clause: a reset block and one that holds an earlier output. -/
theorem witness_acquireOverOutput : ∃ (s : State) (v : State) (t : BitVec 3), t.toNat < 4 ∧ s.busy = false ∧ s.events = [] ∧
    v.busy = false ∧ v.events = [] ∧ v.lifecycle = .keyed ∧ s.dataOut ≠ v.dataOut ∧ s.outLen ≠ v.outLen :=
  ⟨State.reset, { keyed 0#3 with dataOut := Memory.ofBytes payload1, outLen := 16#8 }, 3#3, by decide, rfl, rfl, rfl, rfl, rfl,
    by decide +kernel, by decide⟩

/-- EarlierOutputReachesNoResult: V1 on a block without and one with an earlier output and a longer input. -/
theorem witness_earlierOutput : ∃ (s : State) (v : State) (t : State),
    s.lifecycle = v.lifecycle ∧ s.actType = v.actType ∧ s.actEncKey = v.actEncKey ∧ s.actIntKey = v.actIntKey ∧ s.len = v.len ∧
    (∀ k < s.inLen.toNat, s.dataIn.byte k = v.dataIn.byte k) ∧ s.dataOut ≠ v.dataOut ∧ s.dataIn ≠ v.dataIn ∧
    exec .decrypt s = .next t ∧ t.errCode = .ok := by
  let s := loaded 0xe98cc946#32 0x17c66bcb#32
  obtain ⟨t, h, hp⟩ := of_nextHas (exec .decrypt s) (fun t => t.errCode == .ok) (by decide +kernel)
  exact ⟨s, { s with dataOut := [(0, 1#8)], dataIn := s.dataIn.setWord 60 1#32 }, t, rfl, rfl, rfl, rfl, rfl,
    by decide +kernel, by decide +kernel, by decide +kernel, h, by simpa using hp⟩

/-- V28: the key of 65 bytes that a host writes as its digest. -/
theorem test_long_key_is_hashed : hostKey ((List.range 65).map (BitVec.ofNat 8)) =
    bytesOf [0x69bd728a#32, 0xd6e13cd7#32, 0x6ff19751#32, 0xfde427b0#32, 0x0e395746#32] := by decide +kernel

/-- A WAIT keeps no word (log 12): the RD after it is number 0. -/
theorem test_wait_has_no_number :
    ((HostRun.answered ⟨[.wait, .rd 0x008#12], []⟩ (.data 0x1006#32)).answered (.data 5#32)).read = [5#32] := by decide

/-- UnkeyedBlocksHoldNoOutput: a step between two states that are not KEYED. -/
theorem witness_unkeyed : ∃ (s : State) (t : State), s.lifecycle ≠ .keyed ∧ s.dataOut = [] ∧ s.outLen = 0#8 ∧
    s.scratch = [] ∧ step s = .next t ∧ t.lifecycle ≠ .keyed ∧ s ≠ t :=
  ⟨inFlight State.reset 0x4#4 0#3 [], _, by decide, rfl, rfl, rfl, rfl, by decide, by decide⟩

/-- A refused RD keeps its number (log 13): the RD after it is number 1. -/
theorem test_refused_rd_keeps_its_number :
    ((HostRun.answered ⟨[.rd 0x018#12, .rd 0x000#12], []⟩ (.busError 0x018#12 .read)).answered (.data 5#32)).read[1]? = some 5#32 := rfl

/-- SETLEN at the end of its range (R117). -/
theorem test_lenField_255 : lenField (zeros 255) = 255#8 := by decide +kernel

/-- InstancesShareNothing: two blocks, the second stepped. -/
theorem witness_instances : ∃ (q : Platform),
    Platform.stepAt 1 [State.reset, { State.reset with events := [rd 0x000#12] }] = .next q :=
  ⟨_, rfl⟩

/-- LatencyDependsOnPublicStateOnly: two states with different keys. -/
theorem witness_latency : ∃ s u : State, s ≠ u ∧ s.actType = u.actType ∧ s.lifecycle = u.lifecycle ∧ s.len = u.len :=
  ⟨keyed 0#3, { keyed 0#3 with actEncKey := [] }, by decide +kernel, rfl, rfl, rfl⟩

end Sys2Proof.Tests
end

section
/-! PROOFS. Facts about the decoder, the host's accesses, and what a command and a step can do: the layer that the proofs
about the state (10_state.md) use. -/

namespace Sys2Proof.Machine

/-! ### The decoder and the command words -/

/-- A word is its three fields, in order (R101). -/
theorem fields_append (w : Word) : rsvdField w ++ typeField w ++ opField w = w := by
  apply BitVec.eq_of_getLsbD_eq
  intro i hi
  simp only [rsvdField, typeField, opField, BitVec.getLsbD_append, BitVec.getLsbD_extractLsb']
  grind

theorem decodePlain_eq_ok (w : Word) (i j : Instr) (h : decodePlain w i = .ok j) : j = i ∧ typeField w = 0#3 := by
  unfold decodePlain at h
  split at h
  · cases h; exact ⟨rfl, ‹_›⟩
  · cases h

/-- A word that decodes to a command has that command's fields (R106). -/
theorem fields_of_decode (w : Word) (i : Instr) (h : decode w = .ok i) :
    rsvdField w = 0#25 ∧ typeField w = typeCode i ∧ opField w = opcode i := by
  have plain : ∀ (j : Instr), decodePlain w j = .ok i → typeCode j = 0#3 → (opField w).toNat = (opcode j).toNat →
      typeField w = typeCode i ∧ opField w = opcode i := by
    intro j hj ht ho
    obtain ⟨rfl, hw⟩ := decodePlain_eq_ok w j i hj
    exact ⟨hw.trans ht.symm, BitVec.eq_of_toNat_eq ho⟩
  unfold decode at h
  split at h
  · cases h
  next hr =>
    refine ⟨not_not.1 hr, ?_⟩
    split at h
    next ho => exact plain .nop h rfl ho
    next ho => cases h; exact ⟨rfl, BitVec.eq_of_toNat_eq ho⟩
    next ho => exact plain .decrypt h rfl ho
    next ho => exact plain .encrypt h rfl ho
    next ho => exact plain .release h rfl ho
    next ho => exact plain .sreset h rfl ho
    next => cases h

/-- A word that decodes to a command is that command's one word (R118). -/
theorem encode_of_decode (w : Word) (i : Instr) (h : decode w = .ok i) : encode i = w := by
  obtain ⟨hr, ht, ho⟩ := fields_of_decode w i h
  rw [encode, commandWord, ← hr, ← ht, ← ho, fields_append]

/-- What PEND keeps of a valid word is the whole of it (R49, R105). -/
theorem commandWord_of_decode (w : Word) (i : Instr) (h : decode w = .ok i) :
    commandWord (opField w) (typeField w) = w := by
  obtain ⟨hr, -, -⟩ := fields_of_decode w i h
  rw [commandWord, ← hr, fields_append]

/-- Every word that the formula of R105 calls valid decodes to a command. -/
theorem decode_of_validWord (w : Word) (h : validWord w = true) : ∃ i, decode w = .ok i := by
  simp only [validWord, Bool.and_eq_true, Bool.or_eq_true, decide_eq_true_eq, List.contains_eq_mem, List.mem_cons,
    List.not_mem_nil, or_false] at h
  obtain ⟨hr, h⟩ := h
  have hop : (opField w).toNat = w.toNat % 2 ^ 4 := by simp [opField]
  have hty : w.toNat / 2 ^ 4 % 2 ^ 3 = 0 → typeField w = 0#3 := fun ht =>
    BitVec.eq_of_toNat_eq (by simpa [typeField, Nat.shiftRight_eq_div_pow] using ht)
  have hrs : rsvdField w = 0#25 := BitVec.eq_of_toNat_eq (by simp [rsvdField, Nat.shiftRight_eq_div_pow]; omega)
  rw [← hop] at h
  rcases h with ho | ⟨ho | ho | ho | ho | ho, ht⟩
  · exact ⟨.configure (typeField w), by simp [decode, hrs, ho]⟩
  · exact ⟨.nop, by simp [decode, decodePlain, hrs, ho, hty ht]⟩
  · exact ⟨.decrypt, by simp [decode, decodePlain, hrs, ho, hty ht]⟩
  · exact ⟨.encrypt, by simp [decode, decodePlain, hrs, ho, hty ht]⟩
  · exact ⟨.release, by simp [decode, decodePlain, hrs, ho, hty ht]⟩
  · exact ⟨.sreset, by simp [decode, decodePlain, hrs, ho, hty ht]⟩

/-- A word that the decoder refuses is not valid (R105, R106). -/
theorem validWord_of_decode_error (w : Word) (e : Illegal) (h : decode w = .error e) : validWord w = false := by
  rw [Bool.eq_false_iff]
  intro hv
  obtain ⟨i, hi⟩ := decode_of_validWord w hv
  rw [h] at hi
  cases hi

/-! ### The host's accesses -/

/-- The offset at which a target stands (R22). -/
def Target.offset : Target → Nat
  | .id => 0x000
  | .cmd => 0x004
  | .status => 0x008
  | .intStatus => 0x00C
  | .intEnable => 0x010
  | .len => 0x014
  | .buf b k => b.base + k

/-- An accepted access is four bytes wide and at its target's own offset (R22, R72). -/
theorem offset_of_accessTarget? (off : Offset) (size : Nat) (tg : Target) (h : accessTarget? off size = some tg) :
    size = 4 ∧ off = BitVec.ofNat 12 tg.offset := by
  unfold accessTarget? at h
  split at h
  next hs =>
    have ho : off.toNat = tg.offset := by
      obtain ⟨-, ⟨ho, rfl⟩ | ⟨ho, rfl⟩ | ⟨ho, rfl⟩ | ⟨ho, rfl⟩ | ⟨ho, rfl⟩ | ⟨ho, rfl⟩ | ⟨b, k, rfl, ho, -⟩⟩ :=
        target?_eq_some off tg h <;> exact ho
    exact ⟨hs, by rw [← ho, BitVec.ofNat_toNat, BitVec.setWidth_eq]⟩
  next => cases h

/-- An accepted buffer access lies inside its window. -/
theorem accessTarget?_buf (off : Offset) (size : Nat) (b : Buffer) (k : Nat)
    (h : accessTarget? off size = some (.buf b k)) : k + 4 ≤ b.size := by
  unfold accessTarget? at h
  split at h
  · exact (target?_buf off b k h).2.1
  · cases h

/-- An accepted write other than the SRESET write is one step: what the register write does. -/
theorem step_write (s : State) (off : Offset) (v : Word) (es : List Event) (tg : Target)
    (hm : HostMoves s (.write off 4 v) es) (ht : accessTarget? off 4 = some tg)
    (hv : off.toNat ≠ 0x004 ∨ v ≠ sresetWord) :
    step s = .next (regWrite tg v { s with events := es, reply := .written }) := by
  rw [step_hostAccess s _ es hm (command?_write off 4 v hv)]
  simp only [hostAccess, ht]

/-! ### What a command can do -/

/-- The lengths in a row of the Format Table (R142). -/
theorem format_lengths (t : BitVec 3) (f : Format) (h : formatRow t = some f) :
    f.messageLen ∈ [28, 32, 36] ∧ f.payloadLen ∈ [8, 12, 16] := by
  have hrow := formatRow_some t f h
  simp only [TypeLengths, List.mem_cons, Prod.mk.injEq, List.not_mem_nil, or_false] at hrow ⊢
  omega

/-- All that a command the engine runs can do to the state, one case per kind of effect. -/
inductive CommandEffect (i : Instr) (s : State) : State → Prop
  /-- The status alone: NOP, and every error but a tag failure. -/
  | status (e : ResultCode) : CommandEffect i s (complete e s)
  /-- CONFIGURE succeeded (R221). -/
  | configured (ty : BitVec 3) (hi : i = .configure ty) (hty : ty.toNat < 4)
      (he : s.stagedEncKey.length ≤ 64) (hk : s.stagedIntKey.length ≤ 64) :
      CommandEffect i s (complete .ok
        { s with actType := ty, actEncKey := s.stagedEncKey, actIntKey := s.stagedIntKey, lifecycle := .keyed })
  /-- DECRYPT found a wrong tag: only SCRATCH was written beside the status (R232). -/
  | tagFailure (sc : List Byte) (hk : s.lifecycle = .keyed) (hlen : sc.length = 64)
      (htail : ∀ k, 56 ≤ k → sc.getD k 0#8 = 0#8) :
      CommandEffect i s (complete .signatureCheckFailed { s with scratch := Memory.ofBytes sc })
  /-- DECRYPT or ENCRYPT delivered `out` (R230, R240). -/
  | delivered (sc out : List Byte) (hk : s.lifecycle = .keyed) (hlen : sc.length = 64)
      (htail : ∀ k, 56 ≤ k → sc.getD k 0#8 = 0#8) (hout : out.length ∈ [8, 12, 16, 28, 32, 36]) :
      CommandEffect i s (complete .ok
        { s with
          scratch := Memory.ofBytes sc, dataOut := Memory.ofBytes (out ++ zeros (64 - out.length)),
          outLen := BitVec.ofNat 8 out.length })
  /-- RELEASE (R245). -/
  | released (hi : i = .release) : CommandEffect i s (released s)

theorem commandEffect_configure (ty : BitVec 3) (s : State) : CommandEffect (.configure ty) s (configure ty s) := by
  rcases configure_cases ty s with ⟨-, h⟩ | ⟨-, -, h⟩ | ⟨hty, he, hk, h⟩ <;> rw [h]
  · exact .status _
  · exact .status _
  · exact .configured ty rfl hty (by simpa [State.stagedEncKey] using he) (by simpa [State.stagedIntKey] using hk)

theorem commandEffect_decrypt (s : State) : CommandEffect .decrypt s (decrypt s) := by
  rcases decrypt_cases s with ⟨e, -, h⟩ | ⟨f, sc, hk, -, -, h, hlen, htail⟩ |
    ⟨f, sc, p, hk, hf, -, h, hlen, htail, hp⟩ <;> rw [h]
  · exact .status e
  · exact .tagFailure sc hk hlen htail
  · rw [← hp]
    obtain ⟨-, hn⟩ := format_lengths _ f hf
    exact .delivered sc p hk hlen htail (by rw [hp]; simp at hn ⊢; omega)

theorem commandEffect_encrypt (s : State) : CommandEffect .encrypt s (encrypt s) := by
  rcases encrypt_cases s with ⟨e, -, h⟩ | ⟨f, sc, tok, hk, hf, -, -, h, hlen, htail, htok⟩ <;> rw [h]
  · exact .status e
  · rw [← htok]
    obtain ⟨hn, -⟩ := format_lengths _ f hf
    exact .delivered sc tok hk hlen htail (by rw [htok]; simp at hn ⊢; omega)

/-- The next state that a command other than SRESET answers is one of the effects above. -/
theorem commandEffect_of_exec (i : Instr) (s t : State) (hi : i ≠ .sreset) (h : exec i s = .next t) :
    CommandEffect i s t := by
  cases i with
  | nop => cases h; exact .status .ok
  | configure ty => cases h; exact commandEffect_configure ty s
  | decrypt => cases h; exact commandEffect_decrypt s
  | encrypt => cases h; exact commandEffect_encrypt s
  | release => rw [exec_release] at h; cases h; exact .released rfl
  | sreset => exact absurd rfl hi

/-- What every completion does to the status, whatever the command (R212). -/
theorem CommandEffect.completes {i : Instr} {s t : State} (h : CommandEffect i s t) :
    t.busy = false ∧ t.intStatus = s.intStatus ||| resultBits t.errCode ∧ t.intEnable = s.intEnable := by
  cases h <;> exact ⟨rfl, rfl, rfl⟩

/-! ### What a step can do -/

/-- All that one step can do to the state, one case per kind of move and effect. -/
inductive StepEffect (s : State) : State → Prop
  /-- The block stays as it is: an idle engine turn, a read, a bus error, or a write to a read-only register (R76, R184). -/
  | quiet (es : List Event) (r : Reply) : StepEffect s { s with events := es, reply := r }
  /-- The engine runs the command in flight (R211). -/
  | command (es : List Event) (i : Instr) (t : State) (hm : EngineMoves s es) (hb : s.busy = true)
      (hd : decode (commandWord s.pendOp s.pendType) = .ok i) (he : CommandEffect i { s with events := es } t) :
      StepEffect s t
  /-- A write to INT_STATUS (R34). -/
  | acknowledge (es : List Event) (v : Word) (hm : HostMoves s (.write 0x00C#12 4 v) es) :
      StepEffect s (acknowledge v { s with events := es, reply := .written })
  /-- A write to INT_ENABLE (R38). -/
  | enable (es : List Event) (v : Word) (hm : HostMoves s (.write 0x010#12 4 v) es) :
      StepEffect s { s with events := es, reply := .written, intEnable := v.extractLsb' 0 3 }
  /-- A write dropped by the busy gate (R186). -/
  | drop (es : List Event) (off : Offset) (v : Word) (hm : HostMoves s (.write off 4 v) es) (hb : s.busy = true) :
      StepEffect s (dropWrite { s with events := es, reply := .written })
  /-- A valid word issued (R210). -/
  | latch (es : List Event) (v : Word) (i : Instr) (hm : HostMoves s (.write 0x004#12 4 v) es) (hb : s.busy = false)
      (hd : decode v = .ok i) (hi : i ≠ .sreset) : StepEffect s (latch v { s with events := es, reply := .written })
  /-- An illegal word refused (R213). -/
  | refuse (es : List Event) (v : Word) (hm : HostMoves s (.write 0x004#12 4 v) es) (hb : s.busy = false)
      (hv : validWord v = false) :
      StepEffect s (refuse { s with events := es, reply := .written, lastOp := opField v })
  /-- A write to LEN (R39). -/
  | setLen (es : List Event) (v : Word) (hb : s.busy = false) :
      StepEffect s { s with events := es, reply := .written, len := v }
  /-- A write to a word of a writable buffer (R70). -/
  | setBuf (es : List Event) (b : Buffer) (k : Nat) (v : Word) (hb : s.busy = false) (hd : b ≠ .dataOut)
      (hk : k + 4 ≤ b.size) :
      StepEffect s (State.setBuf { s with events := es, reply := .written } b ((s.buf b).setWord k v))
  /-- The SRESET write or the hardware reset (R300, R301). -/
  | reset (es : List Event) (r : Reply) (hm : (∃ es, SresetMoves s es) ∨ ∃ es, s.events = .hardwareReset :: es) :
      StepEffect s (toReset { s with events := es, reply := r })

/-- An accepted write that is not the SRESET write has one of the effects above. -/
theorem stepEffect_of_regWrite (s : State) (off : Offset) (v : Word) (es : List Event) (tg : Target)
    (hm : HostMoves s (.write off 4 v) es) (ht : accessTarget? off 4 = some tg) (hv : tg = .cmd → v ≠ sresetWord) :
    StepEffect s (regWrite tg v { s with events := es, reply := .written }) := by
  obtain ⟨-, ho⟩ := offset_of_accessTarget? off 4 tg ht
  rcases regWrite_cases tg v { s with events := es, reply := .written } with
    ⟨h, -⟩ | ⟨h, rfl⟩ | ⟨h, rfl⟩ | ⟨-, hc, hs⟩ | ⟨h, hb⟩ | ⟨h, rfl, hs, hb⟩ | ⟨h, rfl, hb⟩ |
    ⟨b, k, h, rfl, hd, hb⟩
  case inr.inr.inr.inl => exact absurd hs (hv hc)
  all_goals rw [h]
  · exact .quiet es _
  · exact .acknowledge es v (ho ▸ hm)
  · exact .enable es v (ho ▸ hm)
  · exact .drop es off v hm hb
  · rcases issue_cases v { s with events := es, reply := .written } with ⟨i, hd, h⟩ | ⟨e, hd, h⟩ <;> rw [h]
    · exact .latch es v i (ho ▸ hm) hb hd fun hi => hs (by rw [← encode_of_decode v i hd, hi]; rfl)
    · exact .refuse es v (ho ▸ hm) hb (validWord_of_decode_error v e hd)
  · exact .setLen es v hb
  · exact .setBuf es b k v hb hd (accessTarget?_buf off 4 b k ht)

/-- A host access that runs no command has one of the effects above. -/
theorem stepEffect_of_hostAccess (s : State) (a : Access) (es : List Event) (hm : HostMoves s a es)
    (hc : a.command? = none) : StepEffect s (hostAccess a { s with events := es }) := by
  cases a with
  | read off size =>
    obtain ⟨r, h⟩ := hostAccess_read off size { s with events := es }
    rw [h]
    exact .quiet es r
  | write off size v =>
    rcases hostAccess_write off size v { s with events := es } with ⟨tg, ht, h⟩ | ⟨-, h⟩ <;> rw [h]
    · obtain ⟨rfl, -⟩ := offset_of_accessTarget? off size tg ht
      refine stepEffect_of_regWrite s off v es tg hm ht ?_
      rintro rfl rfl
      simp only [Access.command?, ht] at hc
      exact absurd hc (by decide)
    · exact .quiet es _

/-- A step that answers a next state has one of the effects above. -/
theorem stepEffect_of_step (s t : State) (h : step s = .next t) : StepEffect s t := by
  rcases step_cases s t h with ⟨es, -, -, rfl⟩ | ⟨es, i, hm, hb, hp, hi, he⟩ | ⟨a, es, hm, hc, rfl⟩ |
    ⟨es, hm, rfl⟩ | ⟨es, hm, rfl⟩
  · exact .quiet es s.reply
  · exact .command es i t hm hb ((pendingCommand_eq_some s i).1 hp).1 (commandEffect_of_exec i _ t hi he)
  · exact stepEffect_of_hostAccess s a es hm hc
  · exact .reset es .written (.inl ⟨es, hm⟩)
  · exact .reset es s.reply (.inr ⟨es, hm⟩)

end Sys2Proof.Machine
end

section
/-! PROOFS. The statements about the block's state (10_state.md): reset, the invariants, the lifecycle, the pending flags and
irq. -/

namespace Sys2Proof.Machine

/-! ### Every step keeps the invariants -/

/-- A state with nothing left in it, the status and the inputs aside, has the invariants. -/
theorem BlockInv.of_cleared {s : State} (hl : s.lifecycle ≠ .keyed)
    (hact : s.actType = 0#3 ∧ s.actEncKey = [] ∧ s.actIntKey = []) (hlen : s.outLen = 0#8) (hbusy : s.busy = false)
    (hbuf : ∀ b, s.buf b = []) (hsc : s.scratch = []) : BlockInv s := by
  have hout : s.dataOut = [] := hbuf .dataOut
  have hwf : ∀ b size, (s.buf b).wf size = true := fun b size => by rw [hbuf]; exact wf_nil size
  exact
    { keyedType := fun hk => absurd hk hl
      unkeyed := fun _ => hact
      outLenLegal := by rw [hlen]; decide
      dataOutTail := fun k _ => by rw [hout, byte_nil]
      scratchTail := fun k _ => by rw [hsc, byte_nil]
      keyLengths := by rw [hact.2.1, hact.2.2]; decide
      inFlight := fun hb => by rw [hbusy] at hb; cases hb
      arrays := ⟨hwf .encKey 64, hwf .intKey 64, hwf .iv 16, hwf .dataIn 64, hwf .dataOut 64, by rw [hsc]; rfl⟩ }

theorem blockInv_toReset (s : State) : BlockInv (toReset s) :=
  .of_cleared (by simp [State.reset]) ⟨rfl, rfl, rfl⟩ rfl rfl (fun b => by cases b <;> rfl) rfl

theorem blockInv_released (s : State) : BlockInv (released s) :=
  .of_cleared (fun h => by cases h) ⟨rfl, rfl, rfl⟩ rfl rfl (fun b => by cases b <;> rfl) rfl

/-- Every window's array is in canonical form within its window's size. -/
theorem BlockInv.buf_wf {s : State} (h : BlockInv s) (b : Buffer) : (s.buf b).wf b.size = true := by
  obtain ⟨hek, hik, hiv, hin, hout, -⟩ := h.arrays
  cases b
  · exact hek
  · exact hik
  · exact hiv
  · exact hin
  · exact hout

/-- No invariant speaks of the inputs to come or of the bus's last answer. -/
theorem BlockInv.withInputs {s : State} (h : BlockInv s) (es : List Event) (r : Reply) :
    BlockInv { s with events := es, reply := r } :=
  { h with }

/-- A completion looks at nothing that the invariants speak of but BUSY, and that falls. -/
theorem BlockInv.complete {s : State} (h : BlockInv s) (e : ResultCode) : BlockInv (complete e s) :=
  { h with inFlight := fun hb => by cases hb }

/-- A word stored inside a writable window keeps the array canonical, and no other invariant speaks of it. -/
theorem BlockInv.setBuf {s : State} (h : BlockInv s) (b : Buffer) (k : Nat) (v : Word) (hd : b ≠ .dataOut)
    (hk : k + 4 ≤ b.size) : BlockInv (s.setBuf b ((s.buf b).setWord k v)) := by
  have hw := wf_setWord b.size (s.buf b) k v (h.buf_wf b) hk
  obtain ⟨hek, hik, hiv, hin, hout, hsc⟩ := h.arrays
  cases b with
  | encKey => exact { h with arrays := ⟨hw, hik, hiv, hin, hout, hsc⟩ }
  | intKey => exact { h with arrays := ⟨hek, hw, hiv, hin, hout, hsc⟩ }
  | iv => exact { h with arrays := ⟨hek, hik, hw, hin, hout, hsc⟩ }
  | dataIn => exact { h with arrays := ⟨hek, hik, hiv, hw, hout, hsc⟩ }
  | dataOut => exact absurd rfl hd

/-- Issue latches only a word that the engine runs (R210). -/
theorem BlockInv.latch {s : State} (h : BlockInv s) (v : Word) (i : Instr) (hd : decode v = .ok i) (hi : i ≠ .sreset) :
    BlockInv (latch v s) := by
  have hpend : decode (Machine.latch v s).pendWord = .ok i := (congrArg decode (commandWord_of_decode v i hd)).trans hd
  exact { h with inFlight := fun _ => ⟨i, (pendingCommand_eq_some _ i).2 ⟨hpend, hi⟩⟩ }

/-- A full SCRATCH image with a zero tail keeps the invariants. -/
theorem BlockInv.setScratch {s : State} (h : BlockInv s) (sc : List Byte) (hlen : sc.length = 64)
    (htail : ∀ k, 56 ≤ k → sc.getD k 0#8 = 0#8) : BlockInv { s with scratch := Memory.ofBytes sc } := by
  obtain ⟨hek, hik, hiv, hin, hout, -⟩ := h.arrays
  exact { h with
    scratchTail := fun k hk => by rw [byte_ofBytes, htail k hk]
    arrays := ⟨hek, hik, hiv, hin, hout, wf_ofBytes 64 sc (by omega)⟩ }

/-- An output of a legal length, zeros beyond it, keeps the invariants. -/
theorem BlockInv.setOutput {s : State} (h : BlockInv s) (out : List Byte) (hout : out.length ∈ [8, 12, 16, 28, 32, 36]) :
    BlockInv { s with
      dataOut := Memory.ofBytes (out ++ zeros (64 - out.length)), outLen := BitVec.ofNat 8 out.length } := by
  have hle : out.length ≤ 36 := by
    simp only [List.mem_cons, List.not_mem_nil, or_false] at hout
    omega
  have hlen : (BitVec.ofNat 8 out.length).toNat = out.length := by
    rw [BitVec.toNat_ofNat]
    omega
  obtain ⟨hek, hik, hiv, hin, -, hsc⟩ := h.arrays
  exact { h with
    outLenLegal := by rw [hlen]; exact List.mem_cons_of_mem 0 hout
    dataOutTail := fun k hk => by
      rw [hlen] at hk
      rw [byte_ofBytes, getD_append_zeros, List.getD_eq_default _ _ hk]
    arrays := ⟨hek, hik, hiv, hin, wf_ofBytes 64 _ (by simp; omega), hsc⟩ }

/-- A type of the Format Table and keys of at most 64 bytes keep the invariants (R221). -/
theorem BlockInv.configured {s : State} (h : BlockInv s) (ty : BitVec 3) (ek ik : List Byte) (hty : ty.toNat < 4)
    (hek : ek.length ≤ 64) (hik : ik.length ≤ 64) :
    BlockInv { s with actType := ty, actEncKey := ek, actIntKey := ik, lifecycle := .keyed } :=
  { h with
    keyedType := fun _ => hty
    unkeyed := fun hn => absurd (show Lifecycle.keyed = .keyed from rfl) hn
    keyLengths := ⟨hek, hik⟩ }

/-- Every effect of a command keeps the invariants. -/
theorem BlockInv.command {i : Instr} {s t : State} (h : BlockInv s) (he : CommandEffect i s t) : BlockInv t := by
  cases he with
  | status e => exact h.complete e
  | configured ty _ hty hek hik => exact (h.configured ty _ _ hty hek hik).complete .ok
  | tagFailure sc _ hlen htail => exact (h.setScratch sc hlen htail).complete .signatureCheckFailed
  | delivered sc out _ hlen htail hout => exact ((h.setScratch sc hlen htail).setOutput out hout).complete .ok
  | released _ => exact blockInv_released s

/-- Every effect of a step keeps the invariants. -/
theorem BlockInv.step {s t : State} (h : BlockInv s) (he : StepEffect s t) : BlockInv t := by
  cases he with
  | quiet es r => exact h.withInputs es r
  | command es i t _ _ _ he => exact (h.withInputs es s.reply).command he
  | acknowledge es v _ => exact { h with }
  | enable es v _ => exact { h with }
  | drop es off v _ _ => exact { h with }
  | latch es v i _ _ hd hi => exact (h.withInputs es .written).latch v i hd hi
  | refuse es v _ _ _ => exact { h with }
  | setLen es v _ => exact { h with }
  | setBuf es b k v _ hd hk => exact (h.withInputs es .written).setBuf b k v hd hk
  | reset es r _ => exact blockInv_toReset _

/-- Settles O34, by cases on what a step can do and, for the engine's step, on what a command can do. -/
theorem everyStepKeepsTheInvariants : Obligations.EveryStepKeepsTheInvariants :=
  fun s t h hs => h.step (stepEffect_of_step s t hs)

/-- Settles O33: the state a reset leaves has the invariants. -/
theorem invariantsAtReset : Obligations.InvariantsAtReset := fun es => blockInv_toReset { State.reset with events := es }

/-! ### Reachable states -/

/-- A predicate that holds at reset, whatever inputs are to come, and that every effect of a step keeps, holds in every
reachable state. -/
theorem Reachable.invariant {P : State → Prop} (hreset : ∀ es, P { State.reset with events := es })
    (hstep : ∀ s t, P s → StepEffect s t → P t) {s : State} (h : Reachable s) : P s := by
  induction h with
  | reset es => exact hreset es
  | step s t _ hs ih => exact hstep s t ih (stepEffect_of_step s t hs)

theorem Reachable.blockInv {s : State} (h : Reachable s) : BlockInv s :=
  h.invariant (fun es => blockInv_toReset { State.reset with events := es }) fun _ _ hs he => hs.step he

theorem getLsbD_bitWord (b : Bool) (i : Nat) : (bitWord b).getLsbD i = (decide (i = 0) && b) := by
  cases b <;> simp [bitWord, BitVec.getLsbD_one]

/-- Bit 1 of STATUS is KEYED (R25, R27). -/
theorem statusWord_keyedBit (s : State) : s.statusWord.getLsbD 1 = s.keyed := by
  simp only [State.statusWord, BitVec.getLsbD_or, BitVec.getLsbD_shiftLeft, getLsbD_bitWord]
  simp

/-- Bits [3:2] of STATUS are the code of STATE (R25, R28). -/
theorem statusWord_stateField (s : State) : s.statusWord.extractLsb' 2 2 = s.lifecycle.code := by
  apply BitVec.eq_of_getLsbD_eq
  intro i hi
  simp only [State.statusWord, BitVec.getLsbD_extractLsb', BitVec.getLsbD_or, BitVec.getLsbD_shiftLeft,
    getLsbD_bitWord]
  interval_cases i <;> simp

/-- Settles O35, from the invariants of every reachable state. -/
theorem invariantsOfEveryReachableState : Obligations.InvariantsOfEveryReachableState := by
  intro s hs
  have h := hs.blockInv
  refine ⟨?_, fun hk => ?_, h.unkeyed, ?_, h.outLenLegal, fun k hk _ => h.dataOutTail k hk,
    fun k hk _ => h.scratchTail k hk⟩
  · rw [statusWord_keyedBit, statusWord_stateField, State.keyed, decide_eq_true_eq]
    cases s.lifecycle <;> decide
  · have small : ∀ ty : BitVec 3, ty.toNat < 4 → ty ∈ [0b000#3, 0b001#3, 0b010#3, 0b011#3] := by decide
    exact small s.actType (h.keyedType hk)
  · cases s.lifecycle <;> decide

/-! ### The lifecycle, and the output of a block that is not KEYED -/

/-- Settles O38, by cases on what a step can do: only a CONFIGURE or RELEASE that the engine runs, and a reset, write
STATE. -/
theorem lifecycleChangesOnlyByCommandsAndReset : Obligations.LifecycleChangesOnlyByCommandsAndReset := by
  intro s t hs hne
  cases stepEffect_of_step s t hs with
  | command es i t hm hb hd he =>
    cases he with
    | configured ty hi hty _ _ => exact .inl ⟨rfl, rfl, hb, ⟨es, hm⟩, ty, hty, hi ▸ hd, rfl⟩
    | released hi => exact .inr (.inl ⟨rfl, rfl, hb, ⟨es, hm⟩, hi ▸ hd⟩)
    | _ => exact absurd rfl hne
  | setBuf es b k v _ _ _ => exact absurd (setBuf_lifecycle _ b _) hne
  | reset es r hm => exact .inr (.inr ⟨rfl, hm⟩)
  | _ => exact absurd rfl hne

/-- No result, no candidate payload and no pad, unless the block is KEYED (R44, R245, R51). -/
def NoOutputUnlessKeyed (s : State) : Prop := s.lifecycle ≠ .keyed → s.dataOut = [] ∧ s.outLen = 0#8 ∧ s.scratch = []

theorem noOutputUnlessKeyed_reset (es : List Event) : NoOutputUnlessKeyed { State.reset with events := es } :=
  fun _ => ⟨rfl, rfl, rfl⟩

/-- A command that writes an output or SCRATCH bytes runs to its result only while KEYED, and RELEASE clears both. -/
theorem NoOutputUnlessKeyed.command {i : Instr} {s t : State} (h : NoOutputUnlessKeyed s) (he : CommandEffect i s t) :
    NoOutputUnlessKeyed t := by
  cases he with
  | status e => exact h
  | configured ty _ _ _ _ => exact fun hn => absurd rfl hn
  | tagFailure sc hk _ _ => exact fun hn => absurd hk hn
  | delivered sc out hk _ _ _ => exact fun hn => absurd hk hn
  | released _ => exact fun _ => ⟨rfl, rfl, rfl⟩

theorem NoOutputUnlessKeyed.step {s t : State} (h : NoOutputUnlessKeyed s) (he : StepEffect s t) :
    NoOutputUnlessKeyed t := by
  cases he with
  | command es i t _ _ _ he =>
    have h' : NoOutputUnlessKeyed { s with events := es } := h
    exact h'.command he
  | setBuf es b k v _ hd _ =>
    unfold NoOutputUnlessKeyed at h ⊢
    rw [setBuf_lifecycle, setBuf_dataOut, if_neg hd, setBuf_outLen, setBuf_scratch]
    exact h
  | reset es r _ => exact fun _ => ⟨rfl, rfl, rfl⟩
  | _ => exact h

/-- Settles O55, by cases on what a step can do. -/
theorem unkeyedBlocksHoldNoOutput : Obligations.UnkeyedBlocksHoldNoOutput :=
  ⟨noOutputUnlessKeyed_reset,
    fun s t h hs => NoOutputUnlessKeyed.step h (stepEffect_of_step s t hs),
    fun _ hs => hs.invariant noOutputUnlessKeyed_reset fun _ _ h he => h.step he⟩

/-! ### The pending flags -/

/-- W1C, bit by bit (R34). -/
theorem getLsbD_clearBits (bits : BitVec 3) (v : Word) (i : Nat) (hi : i < 3) :
    (clearBits bits v).getLsbD i = (bits.getLsbD i && !v.getLsbD i) := by
  simp [clearBits, hi]

theorem resultBits_doneBit (e : ResultCode) : (resultBits e).getLsbD 0 = true := by cases e <;> decide

theorem resultBits_errBit (e : ResultCode) : (resultBits e).getLsbD 1 = true ↔ e ≠ .ok := by cases e <;> decide

theorem resultBits_werrBit (e : ResultCode) : (resultBits e).getLsbD 2 = false := by cases e <;> decide

/-- All that a step can do to INT_STATUS, one case per cause. -/
inductive PendingChange (s t : State) : Prop
  | unchanged (h : t.intStatus = s.intStatus)
  | completed (es : List Event) (hm : EngineMoves s es) (hb : s.busy = true) (hb' : t.busy = false)
      (h : t.intStatus = s.intStatus ||| resultBits t.errCode)
  | refused (es : List Event) (v : Word) (hm : HostMoves s (.write 0x004#12 4 v) es) (hb : s.busy = false)
      (hv : validWord v = false) (he : t.errCode = .illegalCommand) (h : t.intStatus = s.intStatus ||| resultBits t.errCode)
  | dropped (es : List Event) (off : Offset) (v : Word) (hm : HostMoves s (.write off 4 v) es) (hb : s.busy = true)
      (hb' : t.busy = true) (h : t.intStatus = s.intStatus ||| werrBit)
  | acknowledged (es : List Event) (v : Word) (hm : HostMoves s (.write 0x00C#12 4 v) es)
      (h : t.intStatus = clearBits s.intStatus v)
  | reset (hm : (∃ es, SresetMoves s es) ∨ ∃ es, s.events = .hardwareReset :: es) (h : t.intStatus = 0#3)

theorem StepEffect.pendingChange {s t : State} (he : StepEffect s t) : PendingChange s t := by
  cases he with
  | command es i t hm hb _ he =>
    obtain ⟨hb', hi, -⟩ := he.completes
    exact .completed es hm hb hb' hi
  | acknowledge es v hm => exact .acknowledged es v hm rfl
  | drop es off v hm hb => exact .dropped es off v hm hb hb rfl
  | refuse es v hm hb hv => exact .refused es v hm hb hv rfl rfl
  | setBuf es b k v _ _ _ => exact .unchanged (setBuf_intStatus _ b _)
  | reset es r hm => exact .reset hm rfl
  | _ => exact .unchanged rfl

/-- A pending bit falls only by a write of 1 to it, or by a reset. -/
theorem PendingChange.falls {s t : State} (h : PendingChange s t) (i : Nat) (hi : i < 3)
    (hs : s.intStatus.getLsbD i = true) (ht : t.intStatus.getLsbD i = false) :
    (∃ v es, HostMoves s (.write 0x00C#12 4 v) es ∧ v.getLsbD i = true) ∨ (∃ es, SresetMoves s es) ∨
      ∃ es, s.events = .hardwareReset :: es := by
  cases h with
  | acknowledged es v hm h =>
    rw [h, getLsbD_clearBits _ _ _ hi, hs] at ht
    exact .inl ⟨v, es, hm, by simpa using ht⟩
  | reset hm _ => exact .inr hm
  | unchanged h | completed _ _ _ _ h | refused _ _ _ _ _ _ h | dropped _ _ _ _ _ _ h => simp [h, hs] at ht

/-- A bit of a result rises only by a completion or a refusal, which sets the bits of the result code that it leaves. -/
theorem PendingChange.result_rises {s t : State} (h : PendingChange s t) (i : Nat) (hi : i < 2)
    (hs : s.intStatus.getLsbD i = false) (ht : t.intStatus.getLsbD i = true) :
    (resultBits t.errCode).getLsbD i = true ∧
      ((s.busy = true ∧ t.busy = false ∧ ∃ es, EngineMoves s es) ∨
       (s.busy = false ∧ t.errCode = .illegalCommand ∧
         ∃ v es, HostMoves s (.write 0x004#12 4 v) es ∧ validWord v = false)) := by
  cases h with
  | completed es hm hb hb' h => exact ⟨by simpa [h, hs] using ht, .inl ⟨hb, hb', es, hm⟩⟩
  | refused es v hm hb hv he h => exact ⟨by simpa [h, hs] using ht, .inr ⟨hb, he, v, es, hm, hv⟩⟩
  | dropped es off v _ _ _ h =>
    have hw : ∀ i < 2, werrBit.getLsbD i = false := by decide
    simp [h, hs, hw i hi] at ht
  | acknowledged es v _ h =>
    rw [h, getLsbD_clearBits _ _ _ (by omega), hs] at ht
    cases ht
  | unchanged h => rw [h, hs] at ht; cases ht
  | reset _ h => simp [h] at ht

/-- WERR rises only by a write while BUSY. -/
theorem PendingChange.werr_rises {s t : State} (h : PendingChange s t) (hs : s.intStatus.getLsbD 2 = false)
    (ht : t.intStatus.getLsbD 2 = true) : s.busy = true ∧ t.busy = true ∧ ∃ off v es, HostMoves s (.write off 4 v) es := by
  cases h with
  | dropped es off v hm hb hb' h => exact ⟨hb, hb', off, v, es, hm⟩
  | completed _ _ _ _ h | refused _ _ _ _ _ _ h =>
    rw [h, BitVec.getLsbD_or, hs, resultBits_werrBit] at ht
    cases ht
  | acknowledged es v _ h =>
    rw [h, getLsbD_clearBits _ _ _ (by omega), hs] at ht
    cases ht
  | unchanged h => rw [h, hs] at ht; cases ht
  | reset _ h => simp [h] at ht

/-- Settles O18, from the six things a step can do to INT_STATUS. -/
theorem pendingFlagsChangeOnlyAsStated : Obligations.PendingFlagsChangeOnlyAsStated := by
  intro s t hs
  have h := (stepEffect_of_step s t hs).pendingChange
  refine ⟨h.falls, fun h0 h1 => (h.result_rises 0 (by omega) h0 h1).2, fun h0 h1 => ?_, h.werr_rises⟩
  obtain ⟨hbit, hcause⟩ := h.result_rises 1 (by omega) h0 h1
  exact ⟨(resultBits_errBit _).1 hbit, hcause.imp_right fun ⟨hb, _, hw⟩ => ⟨hb, hw⟩⟩

/-! ### irq -/

/-- irq is 1 exactly while a pending bit is enabled (R50). -/
theorem irq_iff (s : State) :
    s.irq = true ↔ ∃ i < 3, s.intStatus.getLsbD i = true ∧ s.intEnable.getLsbD i = true := by
  have nonzero : ∀ x : BitVec 3, x ≠ 0#3 ↔ ∃ i < 3, x.getLsbD i = true := by decide
  simp only [State.irq, decide_eq_true_eq, nonzero, BitVec.getLsbD_and, Bool.and_eq_true]

/-- A command completes with irq at 1 when a bit of its result is enabled (R212, R271). -/
theorem irq_of_exec {i : Instr} {s t : State} (hi : i ≠ .sreset) (h : exec i s = .next t) (k : Nat) (hk : k < 3)
    (hbit : (resultBits t.errCode).getLsbD k = true) (hen : s.intEnable.getLsbD k = true) : t.irq = true := by
  obtain ⟨-, hst, hie⟩ := (commandEffect_of_exec i s t hi h).completes
  exact (irq_iff t).2 ⟨k, hk, by simp [hst, hbit], hie ▸ hen⟩

/-- Settles O19, from the bits that a completion sets and the writes that clear or disable all three. -/
theorem irqFollowsPendingAndEnabled : Obligations.IrqFollowsPendingAndEnabled := by
  refine ⟨irq_iff, fun i s t hi h => irq_of_exec hi h 0 (by omega) (resultBits_doneBit _),
    fun i s t hi h he => irq_of_exec hi h 1 (by omega) ((resultBits_errBit _).2 he), fun s v es hm hv => ?_,
    fun s es hm => ?_⟩
  · have hacked : clearBits s.intStatus v = 0#3 := by simp [clearBits, hv]
    exact ⟨_, step_write s _ v es .intStatus hm (by decide) (.inl (by decide)), by simp [regWrite, State.irq, hacked]⟩
  · exact ⟨_, step_write s _ _ es .intEnable hm (by decide) (.inl (by decide)), by simp [regWrite, State.irq]⟩

/-! ### Reset -/

/-- The state a reset leaves has every reset value (R55). -/
theorem resetValues_toReset (s : State) : ResetValues (toReset s) := by
  constructor
  case irq => exact (show (toReset s).irq = State.reset.irq from rfl).trans (by decide : State.reset.irq = false)
  all_goals rfl

theorem statusWord_toReset (s : State) : (toReset s).statusWord = 0#32 :=
  (show (toReset s).statusWord = State.reset.statusWord from rfl).trans (by decide : State.reset.statusWord = 0#32)

/-- A hardware reset is one step, its input consumed (R300). -/
theorem step_hardwareReset (s : State) (es : List Event) (h : s.events = .hardwareReset :: es) :
    step s = .next (toReset { s with events := es }) := by
  simp only [step, nextAction, h, hardReset_eq_toReset]

/-- Settles O4: both resets leave the same state, up to the model's own fields. -/
theorem resetLeavesTheResetValues : Obligations.ResetLeavesTheResetValues :=
  ⟨⟨resetValues_toReset State.reset, statusWord_toReset State.reset, rfl⟩,
    fun s es h => ⟨_, step_hardwareReset s es h, resetValues_toReset _, statusWord_toReset _, rfl, rfl, rfl⟩,
    fun s => ⟨_, exec_sreset s, resetValues_toReset s, statusWord_toReset s, rfl, rfl, rfl⟩⟩

end Sys2Proof.Machine
end

section
/-! PROOFS. The statements about the register window as memory (20_memory.md): which accesses are refused, and what a command
in flight freezes. -/

namespace Sys2Proof.Machine

/-! ### Mapped and unmapped accesses -/

/-- A four-byte access reaches the target of its offset. -/
theorem accessTarget?_four (off : Offset) : accessTarget? off 4 = target? off := if_pos rfl

/-- An accepted access is aligned and inside one of the three mapped ranges (R22, R72). -/
theorem mapped_of_accessTarget? (off : Offset) (size : Nat) (tg : Target) (h : accessTarget? off size = some tg) :
    size = 4 ∧ off.toNat % 4 = 0 ∧
      (off.toNat < 0x018 ∨ (0x100 ≤ off.toNat ∧ off.toNat < 0x190) ∨ (0x1C0 ≤ off.toNat ∧ off.toNat < 0x240)) := by
  obtain ⟨rfl, -⟩ := offset_of_accessTarget? off size tg h
  rw [accessTarget?_four] at h
  obtain ⟨h4, hcases⟩ := target?_eq_some off tg h
  refine ⟨rfl, h4, ?_⟩
  rcases hcases with ⟨ho, -⟩ | ⟨ho, -⟩ | ⟨ho, -⟩ | ⟨ho, -⟩ | ⟨ho, -⟩ | ⟨ho, -⟩ | ⟨b, k, -, ho, hk, -⟩
  case inr.inr.inr.inr.inr.inr =>
    have window : (0x100 ≤ b.base ∧ b.base + b.size ≤ 0x190) ∨ (0x1C0 ≤ b.base ∧ b.base + b.size ≤ 0x240) := by
      cases b <;> decide
    omega
  all_goals exact .inl (by omega)

/-- An access of another size, misaligned, or outside the mapped ranges has no target (R72). -/
theorem accessTarget?_eq_none (off : Offset) (size : Nat)
    (h : size ≠ 4 ∨ off.toNat % 4 ≠ 0 ∨ (0x018 ≤ off.toNat ∧ off.toNat ≤ 0x0FF) ∨
      (0x190 ≤ off.toNat ∧ off.toNat ≤ 0x1BF) ∨ 0x240 ≤ off.toNat) : accessTarget? off size = none := by
  cases ht : accessTarget? off size with
  | none => rfl
  | some tg =>
    have := mapped_of_accessTarget? off size tg ht
    omega

/-- Every aligned four-byte access inside the mapped ranges has a target (R22). -/
theorem exists_accessTarget?_of_mapped (off : Offset) (h4 : off.toNat % 4 = 0)
    (hr : off.toNat < 0x018 ∨ (0x100 ≤ off.toNat ∧ off.toNat < 0x190) ∨ (0x1C0 ≤ off.toNat ∧ off.toNat < 0x240)) :
    ∃ tg, accessTarget? off 4 = some tg := by
  rw [accessTarget?_four]
  have ranges : off.toNat = 0x000 ∨ off.toNat = 0x004 ∨ off.toNat = 0x008 ∨ off.toNat = 0x00C ∨ off.toNat = 0x010 ∨
      off.toNat = 0x014 ∨ (0x100 ≤ off.toNat ∧ off.toNat < 0x140) ∨ (0x140 ≤ off.toNat ∧ off.toNat < 0x180) ∨
      (0x180 ≤ off.toNat ∧ off.toNat < 0x190) ∨ (0x1C0 ≤ off.toNat ∧ off.toNat < 0x200) ∨
      (0x200 ≤ off.toNat ∧ off.toNat < 0x240) := by omega
  obtain ⟨id, cmd, status, intStatus, intEnable, len, encKey, intKey, iv, dataIn, dataOut, -⟩ := target?_of_range off h4
  rcases ranges with h | h | h | h | h | h | ⟨lo, hi⟩ | ⟨lo, hi⟩ | ⟨lo, hi⟩ | ⟨lo, hi⟩ | ⟨lo, hi⟩
  · exact ⟨_, id h⟩
  · exact ⟨_, cmd h⟩
  · exact ⟨_, status h⟩
  · exact ⟨_, intStatus h⟩
  · exact ⟨_, intEnable h⟩
  · exact ⟨_, len h⟩
  · exact ⟨_, encKey lo hi⟩
  · exact ⟨_, intKey lo hi⟩
  · exact ⟨_, iv lo hi⟩
  · exact ⟨_, dataIn lo hi⟩
  · exact ⟨_, dataOut lo hi⟩

/-! ### One host access as a step -/

/-- A refused read is one step that changes nothing in the block (R72). -/
theorem step_read_refused (s : State) (off : Offset) (size : Nat) (es : List Event)
    (hm : HostMoves s (.read off size) es) (ht : accessTarget? off size = none) :
    step s = .next { s with events := es, reply := .busError off .read } := by
  rw [step_hostAccess s _ es hm (command?_read off size)]
  simp only [hostAccess, ht]

/-- A write without a target is one step that changes nothing in the block; it is not the SRESET write (R72). -/
theorem step_write_refused (s : State) (off : Offset) (size : Nat) (v : Word) (es : List Event)
    (hm : HostMoves s (.write off size v) es) (ht : accessTarget? off size = none) :
    step s = .next { s with events := es, reply := .busError off .write } := by
  have hc : (Access.write off size v).command? = none := by simp only [Access.command?, ht]
  rw [step_hostAccess s _ es hm hc]
  simp only [hostAccess, ht]

/-- An accepted read is one step that answers the register's word (R76, R180). -/
theorem step_read (s : State) (off : Offset) (size : Nat) (es : List Event) (tg : Target)
    (hm : HostMoves s (.read off size) es) (ht : accessTarget? off size = some tg) :
    step s = .next { s with events := es, reply := .data (regRead tg { s with events := es }) } := by
  rw [step_hostAccess s _ es hm (command?_read off size)]
  simp only [hostAccess, ht]

/-- The SRESET write is one step to the reset state, its input consumed (R182, R250). -/
theorem step_sresetWrite (s : State) (es : List Event) (hm : SresetMoves s es) :
    step s = .next (toReset { s with events := es, reply := .written }) := by
  have hc : (Access.write 0x004#12 4 sresetWord).command? = some .sreset := by decide
  have he : s.events = .bus (.write 0x004#12 4 sresetWord) :: es := hm
  simp only [step, nextAction, he, hostTurn, hc, exec_sreset]

/-- No register write changes the bus's answer. -/
theorem regWrite_reply (tg : Target) (v : Word) (s : State) : (regWrite tg v s).reply = s.reply := by
  rcases regWrite_cases tg v s with
    ⟨h, -⟩ | ⟨h, -⟩ | ⟨h, -⟩ | ⟨h, -, -⟩ | ⟨h, -⟩ | ⟨h, -, -, -⟩ | ⟨h, -, -⟩ | ⟨b, k, h, -, -, -⟩ <;> rw [h]
  case inr.inr.inr.inr.inr.inl => rcases issue_cases v s with ⟨i, -, h⟩ | ⟨e, -, h⟩ <;> rw [h] <;> rfl
  case inr.inr.inr.inr.inr.inr.inr => exact setBuf_reply s b _
  all_goals rfl

/-- An accepted write answers `written`, the SRESET write among them (R182). -/
theorem exists_step_write_written (s : State) (off : Offset) (v : Word) (es : List Event) (tg : Target)
    (hm : HostMoves s (.write off 4 v) es) (ht : accessTarget? off 4 = some tg) :
    ∃ t, step s = .next t ∧ t.reply = .written := by
  by_cases hv : off.toNat ≠ 0x004 ∨ v ≠ sresetWord
  · exact ⟨_, step_write s off v es tg hm ht hv, regWrite_reply tg v _⟩
  · obtain ⟨ho, rfl⟩ : off.toNat = 0x004 ∧ v = sresetWord := by simpa only [not_or, not_not] using hv
    obtain rfl : off = 0x004#12 := BitVec.eq_of_toNat_eq ho
    exact ⟨_, step_sresetWrite s es hm, rfl⟩

/-- Settles O13: an access is refused exactly where it has no target, and its target decides its step. -/
theorem busErrorsChangeNothing : Obligations.BusErrorsChangeNothing := by
  intro s off size es
  refine ⟨fun hrefused => ?_, ?_⟩
  · have ht := accessTarget?_eq_none off size hrefused
    exact ⟨fun hm => step_read_refused s off size es hm ht, fun v hm => step_write_refused s off size v es hm ht, rfl, rfl⟩
  · rintro rfl h4 hmapped
    obtain ⟨tg, ht⟩ := exists_accessTarget?_of_mapped off h4 hmapped
    exact ⟨fun hm => ⟨_, _, step_read s off 4 es tg hm ht, rfl⟩, fun v hm => exists_step_write_written s off v es tg hm ht⟩

/-! ### A command in flight -/

/-- Settles O39, by cases on what a step can do: the effects that write an input, a key, an output, a result or the latch
start from BUSY = 0 or end there. -/
theorem inputsAreFrozenInFlight : Obligations.InputsAreFrozenInFlight := by
  intro s t hs hb ht
  have idle : s.busy ≠ false := by simp [hb]
  cases stepEffect_of_step s t hs with
  | quiet _ _ => rfl
  | acknowledge _ _ _ => rfl
  | enable _ _ _ => rfl
  | drop _ _ _ _ _ => rfl
  | command _ _ _ _ _ _ he =>
    obtain ⟨hdone, -, -⟩ := he.completes
    exact absurd ht (by simp [hdone])
  | latch _ _ _ _ hidle _ _ => exact absurd hidle idle
  | refuse _ _ _ hidle _ => exact absurd hidle idle
  | setLen _ _ hidle => exact absurd hidle idle
  | setBuf _ _ _ _ hidle _ _ => exact absurd hidle idle
  | reset _ _ _ => cases ht

end Sys2Proof.Machine
end

section
/-! PROOFS. The statements about the command words and the host programs (30_encoding.md): decode and encode, the valid words,
a command run to its completion, and the read of its result. -/

namespace Sys2Proof.Machine

/-! ### Fields of a command word -/

@[simp] theorem opField_commandWord (op : BitVec 4) (ty : BitVec 3) : opField (commandWord op ty) = op :=
  BitVec.extractLsb'_append_eq_right

@[simp] theorem typeField_commandWord (op : BitVec 4) (ty : BitVec 3) : typeField (commandWord op ty) = ty := by
  rw [typeField, commandWord, BitVec.extractLsb'_append_eq_of_le (by decide)]
  exact BitVec.extractLsb'_append_eq_right

@[simp] theorem rsvdField_commandWord (op : BitVec 4) (ty : BitVec 3) : rsvdField (commandWord op ty) = 0#25 := by
  rw [rsvdField, commandWord, BitVec.extractLsb'_append_eq_of_le (by decide)]
  exact BitVec.extractLsb'_append_eq_left

/-! ### Decode and encode -/

/-- The decoder reads a command exactly where the three fields are that command's (R101 to R106). -/
theorem decode_eq_ok_iff_fields (w : Word) (i : Instr) :
    decode w = .ok i ↔ rsvdField w = 0#25 ∧ typeField w = typeCode i ∧ opField w = opcode i := by
  refine ⟨fields_of_decode w i, ?_⟩
  rintro ⟨hr, ht, ho⟩
  cases i <;> simp [decode, decodePlain, hr, ht, ho, opcode, typeCode]

/-- Every command's word decodes to that command (R118). -/
@[simp] theorem decode_encode (i : Instr) : decode (encode i) = .ok i :=
  (decode_eq_ok_iff_fields _ i).2
    ⟨rsvdField_commandWord _ _, typeField_commandWord _ _, opField_commandWord _ _⟩

/-- A word decodes to a command exactly when it is that command's word (R106, R118). -/
theorem decode_eq_ok_iff (w : Word) (i : Instr) : decode w = .ok i ↔ encode i = w :=
  ⟨encode_of_decode w i, fun h => h ▸ decode_encode i⟩

/-- Settles O1: the decoder reads a word by its fields, and the fields make the word. -/
theorem decodeIffEncode : Obligations.DecodeIffEncode := decode_eq_ok_iff

/-! ### The thirteen valid words -/

/-- The thirteen commands, in the order in which R105 lists their words. -/
def commands : List Instr :=
  .nop :: (List.ofFn fun k => .configure (BitVec.ofFin k)) ++ [.decrypt, .encrypt, .release, .sreset]

theorem mem_commands (i : Instr) : i ∈ commands := by
  cases i with
  | configure ty => exact List.mem_cons_of_mem _ (List.mem_append_left _ (List.mem_ofFn.2 ⟨ty.toFin, rfl⟩))
  | _ => decide

/-- The words that decode are the words of the thirteen commands. -/
theorem exists_decode_iff_mem_map_encode (w : Word) : (∃ i, decode w = .ok i) ↔ w ∈ commands.map encode := by
  simp only [decode_eq_ok_iff, List.mem_map, mem_commands, true_and]

/-- The word of every command is valid by the formula of R105. -/
theorem validWord_encode (i : Instr) : validWord (encode i) = true := by
  cases i with
  | nop => exact Laws.EncodeValid.nop
  | configure ty => exact Laws.EncodeValid.configure ty
  | decrypt => exact Laws.EncodeValid.decrypt
  | encrypt => exact Laws.EncodeValid.encrypt
  | release => exact Laws.EncodeValid.release
  | sreset => exact Laws.EncodeValid.sreset

/-- The decoder accepts exactly the words that are valid by the formula of R105. -/
theorem exists_decode_iff_validWord (w : Word) : (∃ i, decode w = .ok i) ↔ validWord w = true := by
  refine ⟨?_, decode_of_validWord w⟩
  rintro ⟨i, hi⟩
  exact encode_of_decode w i hi ▸ validWord_encode i

/-- Which pairs of OP and TYPE belong to a command (R102, R103, R104). -/
theorem exists_fields_iff (op : BitVec 4) (ty : BitVec 3) :
    (∃ i, ty = typeCode i ∧ op = opcode i) ↔
      op = 0x1#4 ∨ (op ∈ [0x0#4, 0x2#4, 0x3#4, 0x4#4, 0xF#4] ∧ ty = 0#3) := by
  constructor
  · rintro ⟨i, rfl, rfl⟩
    cases i <;> simp [opcode, typeCode]
  · simp only [List.mem_cons, List.not_mem_nil, or_false]
    rintro (rfl | ⟨rfl | rfl | rfl | rfl | rfl, rfl⟩)
    · exact ⟨.configure ty, rfl, rfl⟩
    · exact ⟨.nop, rfl, rfl⟩
    · exact ⟨.decrypt, rfl, rfl⟩
    · exact ⟨.encrypt, rfl, rfl⟩
    · exact ⟨.release, rfl, rfl⟩
    · exact ⟨.sreset, rfl, rfl⟩

/-- Settles O2: the formula is about the word's fields, validWord and the thirteen words about the commands' own words. -/
theorem thirteenValidWords : Obligations.ThirteenValidWords := by
  intro w
  refine ⟨?_, exists_decode_iff_validWord w, exists_decode_iff_mem_map_encode w⟩
  simp only [decode_eq_ok_iff_fields, exists_and_left, exists_fields_iff]
  rfl

/-! ### The words of R118 -/

/-- A CONFIGURE whose type has no row ends in UnknownType (R104, R221). -/
theorem exec_configure_unknownType (ty : BitVec 3) (s : State) (h : 4 ≤ ty.toNat) :
    exec (.configure ty) s = .next (complete .unknownType s) := by
  rw [exec_configure]
  rcases configure_cases ty s with ⟨-, hc⟩ | ⟨hlt, -⟩ | ⟨hlt, -⟩
  · rw [hc]
  · omega
  · omega

/-- The word of each command, as R118 lists them. -/
theorem encode_words :
    encode .nop = 0x00000000#32 ∧ encode (.configure 0#3) = 0x00000001#32 ∧ encode (.configure 1#3) = 0x00000011#32 ∧
    encode (.configure 2#3) = 0x00000021#32 ∧ encode (.configure 3#3) = 0x00000031#32 ∧
    encode (.configure 4#3) = 0x00000041#32 ∧ encode (.configure 5#3) = 0x00000051#32 ∧
    encode (.configure 6#3) = 0x00000061#32 ∧ encode (.configure 7#3) = 0x00000071#32 ∧ encode .decrypt = 0x00000002#32 ∧
    encode .encrypt = 0x00000003#32 ∧ encode .release = 0x00000004#32 ∧ encode .sreset = 0x0000000F#32 := by decide

/-- Why each illegal example of R118 is refused (R106). -/
theorem decode_illegalExamples :
    decode 0x00000005#32 = .error .reservedOpcode ∧ decode 0x0000000E#32 = .error .reservedOpcode ∧
    decode 0x00000012#32 = .error .misplacedType ∧ decode 0x00000081#32 = .error .reservedBits ∧
    decode 0x8000000F#32 = .error .reservedBits := ⟨rfl, rfl, rfl, rfl, rfl⟩

/-- Settles O3: each word decodes because it encodes the command, each example has its cause of refusal, and a type without a
row fails CONFIGURE's first check. -/
theorem commandWordsOfTheSpec : Obligations.CommandWordsOfTheSpec := by
  have illegal : ∀ w ∈ [0x00000005#32, 0x0000000E#32, 0x00000012#32, 0x00000081#32, 0x8000000F#32],
      ∀ i, encode i ≠ w := by
    simp only [ne_eq, ← decode_eq_ok_iff, List.forall_mem_cons, decode_illegalExamples]
    simp only [reduceCtorEq, not_false_eq_true, implies_true, List.not_mem_nil, false_implies, and_self]
  have unknown : ∀ ty ∈ [4#3, 5#3, 6#3, 7#3], 4 ≤ BitVec.toNat ty := by decide
  simp only [Obligations.CommandWordsOfTheSpec, decode_eq_ok_iff, encode_words, true_and, ne_eq]
  exact ⟨illegal, fun ty hty s => ⟨_, exec_configure_unknownType ty s (unknown ty hty), rfl⟩⟩

/-! ### A result is read after success only -/

/-- A host at a `readOut` has the reads that the last `STATUS` word calls for. -/
@[simp] theorem HostRun.ready_readOut (r : List Word) :
    HostRun.ready ⟨[.readOut], r⟩ = ⟨readsOf (r.getLastD 0#32), r⟩ := by
  simp [HostRun.ready, decideReads]

/-- The host of a `readOut` makes no access where there is nothing to read. -/
theorem HostRun.access?_readOut_of_nil (r : List Word) (h : readsOf (r.getLastD 0#32) = []) :
    HostRun.access? ⟨[.readOut], r⟩ = none := by
  simp only [HostRun.access?, HostRun.ready_readOut, h]

theorem readsOf_of_error (status : Word) (h : status.extractLsb' 8 4 ≠ 0#4) : readsOf status = [] := if_neg h

theorem readsOf_of_ok (status : Word) (h : status.extractLsb' 8 4 = 0#4) :
    readsOf status =
      (List.range (((status.extractLsb' 16 8).toNat + 3) / 4)).map fun w => .rd (Buffer.dataOut.wordOffset w) := if_pos h

/-- Settles O53: `decideReads` puts `readsOf` in the place of the `readOut`. -/
theorem resultIsReadOnlyOnSuccess : Obligations.ResultIsReadOnlyOnSuccess := by
  intro h status hlast
  have hstatus : h.read.getLastD 0#32 = status := by rw [List.getLastD_eq_getLast?, hlast]; rfl
  refine ⟨fun herr => ?_, fun hok _ => ?_⟩
  · exact HostRun.access?_readOut_of_nil h.read (by rw [hstatus, readsOf_of_error status herr])
  · rw [HostRun.ready_readOut, hstatus, readsOf_of_ok status hok]
    refine ⟨by rw [List.length_map, List.length_range], fun w hw => ?_⟩
    have inRange : w < ((status.extractLsb' 16 8).toNat + 3) / 4 := by omega
    rw [List.getElem?_map, List.getElem?_range inRange]
    rfl

/-! ### A command run to its completion -/

/-- A schedule in two parts runs one after the other. -/
theorem Session.run_append (cs ds : List Turn) (x y : Session) (h : Session.run cs x = .next y) :
    Session.run (cs ++ ds) x = Session.run ds y := by
  induction cs generalizing x with
  | nil => cases h; rfl
  | cons c cs ih =>
    simp only [Session.run, List.cons_append] at h ⊢
    split at h
    next z hz => exact ih z h
    next => cases h
    next => cases h

/-- The command word of another command is not the SRESET word (R110, R118). -/
theorem encode_ne_sresetWord {i : Instr} (hi : i ≠ .sreset) : encode i ≠ sresetWord := by
  intro h
  have hd : decode sresetWord = .ok i := (decode_eq_ok_iff _ i).2 h
  have hs : decode sresetWord = .ok .sreset := rfl
  exact hi (Except.ok.inj (hd.symm.trans hs))

/-- A valid word other than SRESET written to CMD while BUSY = 0 is latched (R182, R210). -/
theorem regWrite_cmd_encode (i : Instr) (s : State) (hb : s.busy = false) (hi : i ≠ .sreset) :
    regWrite .cmd (encode i) s = latch (encode i) s := by
  simp only [regWrite, if_neg (encode_ne_sresetWord hi), hb, issue, decode_encode, Bool.false_eq_true, if_false]

/-- What an issue latches is the fields of the command (R210). -/
theorem latch_encode (i : Instr) (s : State) :
    latch (encode i) s = { s with lastOp := opcode i, pendOp := opcode i, pendType := typeCode i, busy := true } := by
  simp only [latch, encode, opField_commandWord, typeField_commandWord]

/-- After an issue PEND holds the command issued (R49, R210). -/
theorem pendingCommand_latch_encode (i : Instr) (s : State) (hi : i ≠ .sreset) :
    (latch (encode i) s).pendingCommand = some i := by
  have hp : (latch (encode i) s).pendWord = encode i := by rw [latch_encode]; rfl
  rw [pendingCommand_eq_some, hp]
  exact ⟨decode_encode i, hi⟩

/-- The engine's turn runs the command that PEND holds (R211). -/
theorem step_engine (s t : State) (i : Instr) (hb : s.busy = true) (hp : s.pendingCommand = some i)
    (he : s.events = []) (hx : exec i s = .next t) : step { s with events := [.engine] } = .next t := by
  have hturn : engineTurn s = .run i s := by simp only [engineTurn, hb, hp, if_true]
  have haction : nextAction { s with events := [.engine] } = engineTurn s := by simp only [nextAction, ← he]
  simp only [step, haction, hturn, hx]

/-- Every command answers a next state. -/
theorem exists_exec_eq_next (i : Instr) (s : State) : ∃ t, exec i s = .next t := by
  cases i <;> exact ⟨_, rfl⟩

/-- No command touches the inputs to come. -/
theorem CommandEffect.events_eq {i : Instr} {s t : State} (h : CommandEffect i s t) : t.events = s.events := by
  cases h <;> rfl

/-- The host issues a command to an idle block, which latches it (R117, R210). -/
theorem Session.turn_issue (s : State) (i : Instr) (c : List Stmt) (r : List Word) (hb : s.busy = false)
    (he : s.events = []) (hi : i ≠ .sreset) :
    Session.turn ⟨s, ⟨cmd i :: c, r⟩⟩ .host = .next ⟨{ latch (encode i) s with reply := .written }, ⟨c, r⟩⟩ := by
  have htarget : accessTarget? 0x004#12 4 = some .cmd := by decide
  have hissue : regWrite .cmd (encode i) { s with events := [], reply := .written } =
      { latch (encode i) s with reply := .written } := by
    rw [← he]
    exact regWrite_cmd_encode i { s with reply := .written } hb hi
  have hstep : step { s with events := [.bus (.write 0x004#12 4 (encode i))] } =
      .next { latch (encode i) s with reply := .written } := by
    rw [← hissue]
    exact step_write _ 0x004#12 (encode i) [] .cmd rfl htarget (.inr (encode_ne_sresetWord hi))
  exact Session.turn_host _ _ _ rfl hstep

/-- A WAIT's read of STATUS: the host stays at its WAIT while BUSY = 1, and is past it once BUSY = 0 (R117). -/
theorem Session.turn_wait (s : State) (c : List Stmt) (r : List Word) (he : s.events = []) :
    Session.turn ⟨s, ⟨.wait :: c, r⟩⟩ .host =
      .next ⟨{ s with reply := .data s.statusWord }, if s.busy then ⟨.wait :: c, r⟩ else ⟨c, r⟩⟩ := by
  rw [Session.turn_host _ _ _ (HostRun.access?_wait c r) (step_readStatus s), ← he, HostRun.answered_wait, statusWord_busy]

/-- The WAIT that reads STATUS after the completion is over (R117). -/
theorem Session.turn_wait_idle (s : State) (c : List Stmt) (r : List Word) (hb : s.busy = false) (he : s.events = []) :
    Session.turn ⟨s, ⟨.wait :: c, r⟩⟩ .host = .next ⟨{ s with reply := .data s.statusWord }, ⟨c, r⟩⟩ := by
  rw [Session.turn_wait s c r he, if_neg (Bool.eq_false_iff.1 hb)]

/-- `RD STATUS` keeps the STATUS word among what the host has read. -/
theorem Session.turn_readStatus (s : State) (c : List Stmt) (r : List Word) (he : s.events = []) :
    Session.turn ⟨s, ⟨.rd 0x008#12 :: c, r⟩⟩ .host =
      .next ⟨{ s with reply := .data s.statusWord }, ⟨c, r ++ [s.statusWord]⟩⟩ := by
  rw [Session.turn_host _ _ _ (HostRun.access?_rd _ c r) (step_readStatus s), ← he, HostRun.answered_rd]

/-- However often a WAIT reads while BUSY = 1, only the bus's answer changes. -/
theorem Session.run_waits_busy (n : Nat) (s : State) (c : List Stmt) (r : List Word) (hb : s.busy = true)
    (he : s.events = []) :
    ∃ a, Session.run (List.replicate n .host) ⟨s, ⟨.wait :: c, r⟩⟩ = .next ⟨{ s with reply := a }, ⟨.wait :: c, r⟩⟩ := by
  induction n generalizing s with
  | zero => exact ⟨s.reply, rfl⟩
  | succ n ih =>
    obtain ⟨a, ha⟩ := ih { s with reply := .data s.statusWord } hb he
    refine ⟨a, ?_⟩
    rw [List.replicate_succ, Session.run_cons _ _ _ _ (Session.turn_wait s c r he), if_pos hb]
    exact ha

/-- "run" in a host's program that goes on with `c`: the host writes the command to an idle block, waits for its completion, and
has read the STATUS word that the command left (R119). -/
theorem Session.run_runCommand (s t : State) (i : Instr) (n : Nat) (c : List Stmt) (r : List Word) (hb : s.busy = false)
    (he : s.events = []) (hi : i ≠ .sreset) (hx : exec i (latch (encode i) s) = .next t) :
    Session.run ([.host] ++ List.replicate n .host ++ [.engine, .host, .host]) ⟨s, ⟨runCommand i ++ c, r⟩⟩ =
      .next ⟨{ t with reply := .data t.statusWord }, ⟨c, r ++ [t.statusWord]⟩⟩ := by
  have heffect := commandEffect_of_exec i _ t hi hx
  obtain ⟨hdone, -, -⟩ := heffect.completes
  have hte : t.events = [] := heffect.events_eq.trans he
  obtain ⟨a, hwaits⟩ := Session.run_waits_busy n { latch (encode i) s with reply := .written } (.rd 0x008#12 :: c) r rfl he
  have hengine : step { latch (encode i) s with reply := a, events := [.engine] } = .next { t with reply := a } :=
    step_engine { latch (encode i) s with reply := a } _ i rfl (pendingCommand_latch_encode i s hi) he (exec_reply i _ t a hx)
  calc Session.run ([.host] ++ List.replicate n .host ++ [.engine, .host, .host]) ⟨s, ⟨runCommand i ++ c, r⟩⟩
    _ = Session.run (List.replicate n .host ++ [.engine, .host, .host])
          ⟨{ latch (encode i) s with reply := .written }, ⟨.wait :: .rd 0x008#12 :: c, r⟩⟩ :=
        Session.run_cons _ _ _ _ (Session.turn_issue s i _ r hb he hi)
    _ = Session.run [.engine, .host, .host] ⟨{ latch (encode i) s with reply := a }, ⟨.wait :: .rd 0x008#12 :: c, r⟩⟩ :=
        Session.run_append _ _ _ _ hwaits
    _ = Session.run [.host, .host] ⟨{ t with reply := a }, ⟨.wait :: .rd 0x008#12 :: c, r⟩⟩ :=
        Session.run_cons _ _ _ _ (Session.turn_engine _ _ hengine)
    _ = Session.run [.host] ⟨{ t with reply := .data t.statusWord }, ⟨.rd 0x008#12 :: c, r⟩⟩ :=
        Session.run_cons _ _ _ _ (Session.turn_wait_idle { t with reply := a } _ r hdone hte)
    _ = .next ⟨{ t with reply := .data t.statusWord }, ⟨c, r ++ [t.statusWord]⟩⟩ :=
        Session.run_cons _ _ _ _ (Session.turn_readStatus { t with reply := .data t.statusWord } c r hte)

/-- Settles O52: the program is "run" and nothing after it, and the latched state is the issued one by its fields. -/
theorem runWaitsForTheCompletion : Obligations.RunWaitsForTheCompletion := by
  intro s i n hb he hi
  obtain ⟨t, ht⟩ := exists_exec_eq_next i (latch (encode i) s)
  exact ⟨t, latch_encode i s ▸ ht, Session.run_runCommand s t i n [] [] hb he hi ht⟩

end Sys2Proof.Machine
end

section
/-! PROOFS. The statements about the primitives (40_primitives.md): padding, SHA-1 and HMAC, the comparator, the XOR transform
and the Format Table; and the two about tokens that rest on them, the tampered tag and the round trip. -/

namespace Sys2Proof.Machine

/-! ### Byte strings -/

/-- Two byte strings of one length with the same bytes are equal. -/
theorem eq_of_getD_eq {a b : List Byte} (hlen : a.length = b.length)
    (h : ∀ i < a.length, a.getD i 0#8 = b.getD i 0#8) : a = b := by
  refine List.ext_getElem hlen fun i ha hb => ?_
  rw [List.getElem_eq_getD 0#8, List.getElem_eq_getD 0#8]
  exact h i ha

/-- A part of a string read from an array is itself read from the array. -/
theorem slice_bytes (m : Memory) (k n i j : Nat) (h : j ≤ n) : slice (m.bytes k n) i j = m.bytes (k + i) (j - i) := by
  have hlen : (slice (m.bytes k n) i j).length = j - i := by rw [slice_length, bytes_length]; omega
  refine eq_of_getD_eq (by rw [hlen, bytes_length]) fun x hx => ?_
  rw [hlen] at hx
  rw [slice_getD _ _ _ _ hx, bytes_getD _ _ _ _ (by omega), bytes_getD _ _ _ _ hx, Nat.add_assoc]

/-- An array that holds `pre ++ bs ++ post` from index 0 holds `bs` behind `pre`. -/
theorem bytes_of_byte_eq_append (m : Memory) (pre bs post : List Byte)
    (h : ∀ k < (pre ++ bs ++ post).length, m.byte k = (pre ++ bs ++ post).getD k 0#8) :
    m.bytes pre.length bs.length = bs := by
  refine eq_of_getD_eq (bytes_length _ _ _) fun i hi => ?_
  rw [bytes_length] at hi
  rw [bytes_getD _ _ _ _ hi, h _ (by simp only [List.length_append]; omega), List.append_assoc,
    List.getD_append_right _ _ _ _ (Nat.le_add_right _ _), Nat.add_sub_cancel_left, List.getD_append _ _ _ _ hi]

/-! ### SHA-1 -/

/-- Settles O42: the zeros run up to the place in a block where the bit length begins. -/
theorem paddingFillsWholeBlocks : Obligations.PaddingFillsWholeBlocks := by
  intro m
  exact ⟨(119 - m.length % 64) % 64, rfl, by omega, fun y hy => by omega⟩

/-- The number of compressions of a message, from its length alone (R139). -/
theorem sha1BlockCount_eq (m : List Byte) : sha1BlockCount m = (m.length + 8) / 64 + 1 := by
  simp only [sha1BlockCount, sha1Pad, List.length_append, List.length_cons, List.length_nil, zeros_length, be64_length]
  omega

/-- Settles O43: the four messages have 80, 84, and 88 to 96 bytes, all between one block and two. -/
theorem eightCompressionsPerToken : Obligations.EightCompressionsPerToken := by
  intro k iv p hiv hp
  simp only [List.mem_cons, List.not_mem_nil, or_false] at hp
  simp only [sha1BlockCount_eq, List.length_append, innerKey_length, outerKey_length, sha1_length, hiv, true_and,
    and_true]
  omega

/-- Padding a message behind a whole block leaves the block alone; only the length at the end counts it (R132). -/
theorem sha1Pad_block_append (b m : List Byte) (hb : b.length = 64) :
    sha1Pad (b ++ m) =
      b ++ (m ++ [0x80#8] ++ zeros ((119 - m.length % 64) % 64) ++ be64 (BitVec.ofNat 64 (8 * (64 + m.length)))) := by
  simp only [sha1Pad, List.length_append, hb, Nat.add_mod_left, List.append_assoc]

/-- SHA-1 of a message behind a whole block is SHA-1 continued from that block's chaining value (R138). -/
theorem sha1_block_append (b m : List Byte) (hb : b.length = 64) :
    sha1 (b ++ m) = sha1Continue (sha1Compress chainInit b) m := by
  have hcount : ∀ r : List Byte, (b ++ r).length / 64 = r.length / 64 + 1 := fun r => by
    rw [List.length_append, hb]
    omega
  rw [sha1, sha1BlockCount, sha1Pad_block_append b m hb, hcount, sha1Blocks, List.drop_left' hb, List.take_left' hb,
    sha1Continue]

/-! ### HMAC -/

/-- Settles O44: both keyed blocks are whole blocks, hashed once in the key schedule. -/
theorem hmacFromItsKeySchedule : Obligations.HmacFromItsKeySchedule := by
  intro k m
  rw [hmacSha1, sha1_block_append _ _ (outerKey_length k), sha1_block_append _ _ (innerKey_length k), hmacFromSchedule,
    innerSchedule, outerSchedule]

/-- A long key and its digest give one key block (R136, R137). -/
theorem hmacKeyBlock_sha1 (k : List Byte) (hk : 64 < k.length) : hmacKeyBlock (sha1 k) = hmacKeyBlock k := by
  rw [hmacKeyBlock, hmacKeyBlock, if_neg (Nat.not_le.2 hk), sha1_length, if_pos (by omega)]

/-- Settles O45: HMAC reads its key only through the key block. -/
theorem longKeyActsAsItsDigest : Obligations.LongKeyActsAsItsDigest := by
  intro k m hk
  simp only [hmacSha1, innerKey, outerKey, hmacKeyBlock_sha1 k hk]

/-! ### The comparator and the XOR transform -/

/-- The comparator compares the first four bytes and nothing else (R153). -/
theorem ctEqual4_iff (a b : List Byte) : ctEqual4 a b = true ↔ ∀ k < 4, a.getD k 0#8 = b.getD k 0#8 := by
  simp only [ctEqual4, decide_eq_true_eq, BitVec.or_eq_zero_iff, BitVec.xor_eq_zero_iff]
  constructor
  · rintro ⟨⟨⟨h0, h1⟩, h2⟩, h3⟩ k hk
    match k, hk with
    | 0, _ => exact h0
    | 1, _ => exact h1
    | 2, _ => exact h2
    | 3, _ => exact h3
  · intro h
    exact ⟨⟨⟨h 0 (by omega), h 1 (by omega)⟩, h 2 (by omega)⟩, h 3 (by omega)⟩

/-- Settles O46: strings of length 4 that agree in their first four bytes are equal. -/
theorem comparatorIsEquality : Obligations.ComparatorIsEquality := by
  intro a b ha hb
  rw [ctEqual4_iff]
  constructor
  · exact fun h => eq_of_getD_eq (ha.trans hb.symm) (ha ▸ h)
  · rintro rfl k -
    rfl

/-- XORing twice with one pad gives the string back (R149). -/
theorem xorPad_xorPad (x pad : List Byte) (h : x.length ≤ pad.length) : xorPad (xorPad x pad) pad = x := by
  have hlen : (xorPad x pad).length = x.length := by rw [xorPad_length, Nat.min_eq_left h]
  refine eq_of_getD_eq (by rw [xorPad_length, hlen, Nat.min_eq_left h]) fun i hi => ?_
  have hx : i < x.length := by rw [xorPad_length, hlen] at hi; omega
  have hpad : i < pad.length := by omega
  rw [xorPad_getD _ _ _ (by omega) hpad, xorPad_getD _ _ _ hx hpad, BitVec.xor_assoc, BitVec.xor_self, BitVec.xor_zero]

/-- Settles O47. -/
theorem xorTransformIsItsOwnInverse : Obligations.XorTransformIsItsOwnInverse := by
  intro x pad h
  refine ⟨?_, fun i hi => xorPad_getD x pad i hi (by omega), xorPad_xorPad x pad h⟩
  rw [xorPad_length, Nat.min_eq_left h]

/-! ### An error's record -/

/-- What a completion with an error records (R212). -/
theorem complete_error (e : ResultCode) (s : State) (he : e ≠ .ok) :
    complete e s = { s with errCode := e, busy := false, intStatus := s.intStatus ||| 0b011#3 } := by
  rw [complete, resultBits, if_neg he]
  rfl

/-! ### The Format Table -/

/-- R143: a token is the 16-byte IV, the payload and the 4-byte tag, and one pad covers the payload. -/
theorem TypeLengths.lengths {ty : BitVec 3} {ml n : Nat} (h : TypeLengths ty ml n) : ml = 16 + n + 4 ∧ n ≤ 16 := by
  simp only [TypeLengths, List.mem_cons, Prod.mk.injEq, List.not_mem_nil, or_false] at h
  omega

/-- DECRYPT of a KEYED state whose type has no row (log 10). -/
theorem decrypt_unknownType (s : State) (hk : s.lifecycle = .keyed) (hty : 4 ≤ s.actType.toNat) :
    decrypt s = complete .unknownType s := by
  rw [decrypt, if_neg (not_not.2 hk), (formatRow_none_iff _).2 hty]
  rfl

/-- ENCRYPT of a KEYED state whose type has no row (log 10). -/
theorem encrypt_unknownType (s : State) (hk : s.lifecycle = .keyed) (hty : 4 ≤ s.actType.toNat) :
    encrypt s = complete .unknownType s := by
  rw [encrypt, if_neg (not_not.2 hk), (formatRow_none_iff _).2 hty]
  rfl

/-- Settles O48. -/
theorem formatTableRows : Obligations.FormatTableRows := by
  refine ⟨rfl, rfl, rfl, rfl, fun t => (formatRow_none_iff t).2, ?_, fun t f hf => ?_⟩
  · rintro s i (rfl | rfl) hk hty <;> rw [← complete_error .unknownType s (by decide)]
    · rw [exec_decrypt, decrypt_unknownType s hk hty]
    · rw [exec_encrypt, encrypt_unknownType s hk hty]
  · obtain ⟨hml, hn⟩ := (formatRow_some t f hf).lengths
    exact ⟨hml, by omega⟩

/-! ### DECRYPT -/

/-- The payload that DECRYPT takes from DATA_IN (R230 step 4): the ciphertext XORed with the pad of the token's IV. -/
def State.openedPayload (s : State) (n : Nat) : List Byte :=
  xorPad (s.dataIn.bytes 16 n) (keystreamPad s.actEncKey (s.dataIn.bytes 0 16))

/-- The full HMAC that DECRYPT computes over that payload and the token's IV (R230 step 5). -/
def State.openedHmac (s : State) (n : Nat) : List Byte :=
  integrityHmac s.actIntKey (s.openedPayload n) (s.dataIn.bytes 0 16)

/-- Whether the token in DATA_IN carries the tag that DECRYPT computes (R230 step 6). -/
def State.tagVerifies (s : State) (n : Nat) : Bool := ctEqual4 (slice (s.openedHmac n) 0 4) (s.dataIn.bytes (16 + n) 4)

/-- What DECRYPT leaves in SCRATCH (R48). -/
def State.openedScratch (s : State) (n : Nat) : Memory :=
  Memory.ofBytes (scratchImage (keystreamPad s.actEncKey (s.dataIn.bytes 0 16)) (s.openedPayload n) (s.openedHmac n))

/-- The tag verifies when its four bytes are the first four of the HMAC. -/
theorem tagVerifies_iff (s : State) (n : Nat) :
    s.tagVerifies n = true ↔ ∀ k < 4, (s.openedHmac n).getD k 0#8 = s.dataIn.byte (16 + n + k) := by
  rw [State.tagVerifies, ctEqual4_iff]
  refine forall₂_congr fun k hk => ?_
  rw [slice_getD _ _ _ _ (by omega), bytes_getD _ _ _ _ hk, Nat.zero_add]

/-- The payload and HMAC depend on the active keys and on the token without its tag. -/
theorem openedHmac_congr {s u : State} {n : Nat} (he : u.actEncKey = s.actEncKey) (hi : u.actIntKey = s.actIntKey)
    (hin : ∀ k < 16 + n, u.dataIn.byte k = s.dataIn.byte k) : u.openedHmac n = s.openedHmac n := by
  have hiv : u.dataIn.bytes 0 16 = s.dataIn.bytes 0 16 := bytes_congr _ _ _ _ fun i hi => hin _ (by omega)
  have hbody : u.dataIn.bytes 16 n = s.dataIn.bytes 16 n := bytes_congr _ _ _ _ fun i hi => hin _ (by omega)
  simp only [State.openedHmac, State.openedPayload, he, hi, hiv, hbody]

/-- DECRYPT of a token of the right length (R230): what it reads of DATA_IN, and what the tag decides. -/
theorem decrypt_eq (s : State) (ml n : Nat) (hk : s.lifecycle = .keyed) (hty : TypeLengths s.actType ml n)
    (hlen : s.inLen.toNat = ml) :
    decrypt s =
      if s.tagVerifies n then
        complete .ok
          { s with
            scratch := s.openedScratch n, dataOut := Memory.ofBytes (s.openedPayload n ++ zeros (64 - n)),
            outLen := BitVec.ofNat 8 n }
      else complete .signatureCheckFailed { s with scratch := s.openedScratch n } := by
  obtain ⟨hml, -⟩ := hty.lengths
  have hiv : slice (s.input ml) 0 16 = s.dataIn.bytes 0 16 := slice_bytes _ _ _ _ _ (by omega)
  have hbody : slice (s.input ml) 16 (16 + n) = s.dataIn.bytes 16 n := by
    rw [State.input, slice_bytes _ _ _ _ _ (by omega), Nat.zero_add, Nat.add_sub_cancel_left]
  have htag : slice (s.input ml) (16 + n) (16 + n + 4) = s.dataIn.bytes (16 + n) 4 := by
    rw [State.input, slice_bytes _ _ _ _ _ (by omega), Nat.zero_add, Nat.add_sub_cancel_left]
  have hopen : decrypt s = openToken ⟨ml, n⟩ s := by
    rw [decrypt, if_neg (not_not.2 hk), formatRow_of_typeLengths _ _ _ hty]
    exact if_neg (not_not.2 hlen)
  rw [hopen, openToken]
  simp only [hiv, hbody, htag]
  rfl

/-- A token that DECRYPT accepts has its type's length and a tag that verifies. -/
theorem tagVerifies_of_decrypt_ok (s : State) (ml n : Nat) (hty : TypeLengths s.actType ml n)
    (hok : (decrypt s).errCode = .ok) : s.lifecycle = .keyed ∧ s.inLen.toNat = ml ∧ s.tagVerifies n = true := by
  have hrow := formatRow_of_typeLengths _ _ _ hty
  rcases decrypt_cases s with ⟨e, he, h⟩ | ⟨f, sc, -, -, -, h, -⟩ | ⟨f, -, -, hk, hf, hlen, -⟩
  · rw [h] at hok
    exact absurd hok he
  · rw [h] at hok
    cases hok
  · obtain rfl : f = ⟨ml, n⟩ := Option.some.inj (hf.symm.trans hrow)
    refine ⟨hk, hlen, by_contra fun htag => ?_⟩
    rw [decrypt_eq s ml n hk hty hlen, if_neg htag] at hok
    cases hok

/-- Settles O31: the same HMAC is compared with another tag. -/
theorem tamperedTagIsDetected : Obligations.TamperedTagIsDetected := by
  rintro s t u ml n hty hx hok hlife hact he hi hlen hsame ⟨k, hk4, hdiff⟩
  cases hx
  obtain ⟨hk, hinLen, htag⟩ := tagVerifies_of_decrypt_ok s ml n hty hok
  have huLen : u.inLen.toNat = ml := by rw [← hinLen, State.inLen, State.inLen, hlen]
  have hutag : ¬ u.tagVerifies n = true := by
    rw [tagVerifies_iff, openedHmac_congr he hi hsame]
    exact fun h => hdiff ((h k hk4).symm.trans ((tagVerifies_iff s n).1 htag k hk4))
  refine ⟨decrypt u, exec_decrypt u, ?_⟩
  rw [decrypt_eq u ml n (hlife.trans hk) (hact ▸ hty) huLen, if_neg hutag]
  exact ⟨rfl, rfl, rfl⟩

/-! ### ENCRYPT, and DECRYPT of its token -/

/-- The ciphertext of the plaintext in DATA_IN (R240). -/
def State.sealedBody (s : State) (n : Nat) : List Byte := xorPad (s.input n) (keystreamPad s.actEncKey s.initVector)

/-- The token that ENCRYPT makes (R114, R240): IV, ciphertext, tag. -/
def State.sealedToken (s : State) (n : Nat) : List Byte :=
  s.initVector ++ s.sealedBody n ++ integrityTag s.actIntKey (s.input n) s.initVector

@[simp] theorem initVector_length (s : State) : s.initVector.length = 16 := bytes_length _ _ _

@[simp] theorem input_length (s : State) (n : Nat) : (s.input n).length = n := bytes_length _ _ _

@[simp] theorem integrityTag_length (k p iv : List Byte) : (integrityTag k p iv).length = 4 := by
  rw [integrityTag, slice_length, integrityHmac_length]
  rfl

theorem sealedBody_length (s : State) (n : Nat) (hn : n ≤ 20) : (s.sealedBody n).length = n := by
  rw [State.sealedBody, xorPad_length, input_length, keystreamPad_length, Nat.min_eq_left hn]

theorem sealedToken_length (s : State) (n : Nat) (hn : n ≤ 20) : (s.sealedToken n).length = 16 + n + 4 := by
  simp only [State.sealedToken, List.length_append, initVector_length, sealedBody_length s n hn, integrityTag_length]

/-- The token depends on the active keys, the IV and the plaintext, and on nothing else (R156). -/
theorem sealedToken_congr {s u : State} {n : Nat} (he : u.actEncKey = s.actEncKey) (hi : u.actIntKey = s.actIntKey)
    (hiv : ∀ k < 16, u.ivBuf.byte k = s.ivBuf.byte k) (hin : ∀ k < n, u.dataIn.byte k = s.dataIn.byte k) :
    u.sealedToken n = s.sealedToken n := by
  have hinit : u.initVector = s.initVector := bytes_congr _ _ _ _ fun i hi => by rw [Nat.zero_add]; exact hiv i hi
  have hinput : u.input n = s.input n := bytes_congr _ _ _ _ fun i hi => by rw [Nat.zero_add]; exact hin i hi
  simp only [State.sealedToken, State.sealedBody, he, hi, hinit, hinput]

/-- ENCRYPT with the right lengths delivers the token (R240). -/
theorem encrypt_eq (s : State) (ml n : Nat) (hk : s.lifecycle = .keyed) (hty : TypeLengths s.actType ml n)
    (hiv : s.ivLen.toNat = 16) (hlen : s.inLen.toNat = n) :
    encrypt s =
      complete .ok
        { s with
          scratch := Memory.ofBytes (scratchImage (keystreamPad s.actEncKey s.initVector) (s.sealedBody n)
            (integrityHmac s.actIntKey (s.input n) s.initVector))
          dataOut := Memory.ofBytes (s.sealedToken n ++ zeros (64 - ml))
          outLen := BitVec.ofNat 8 ml } := by
  rw [encrypt, if_neg (not_not.2 hk), formatRow_of_typeLengths _ _ _ hty]
  exact (if_neg (not_not.2 hiv)).trans (if_neg (not_not.2 hlen))

/-- What ENCRYPT with the right lengths leaves in DATA_OUT is the token, and 0 beyond it. -/
theorem dataOut_encrypt (s : State) (ml n : Nat) (hk : s.lifecycle = .keyed) (hty : TypeLengths s.actType ml n)
    (hiv : s.ivLen.toNat = 16) (hlen : s.inLen.toNat = n) (k : Nat) :
    (encrypt s).dataOut.byte k = (s.sealedToken n).getD k 0#8 := by
  rw [encrypt_eq s ml n hk hty hiv hlen, complete_dataOut, byte_ofBytes, getD_append_zeros]

/-- ENCRYPT with the right lengths sets OUT_LEN to the message length. -/
theorem outLen_encrypt (s : State) (ml n : Nat) (hk : s.lifecycle = .keyed) (hty : TypeLengths s.actType ml n)
    (hiv : s.ivLen.toNat = 16) (hlen : s.inLen.toNat = n) : (encrypt s).outLen = BitVec.ofNat 8 ml := by
  rw [encrypt_eq s ml n hk hty hiv hlen, complete_outLen]

/-- A block with the same keys that holds the token in DATA_IN takes the plaintext from it, and its tag verifies (R156). -/
theorem opened_of_sealedToken {s u : State} {n : Nat} (hn : n ≤ 20) (he : u.actEncKey = s.actEncKey)
    (hi : u.actIntKey = s.actIntKey) (hin : ∀ k < 16 + n + 4, u.dataIn.byte k = (s.sealedToken n).getD k 0#8) :
    u.openedPayload n = s.input n ∧ u.tagVerifies n = true := by
  have hbodyLen := sealedBody_length s n hn
  have htoken : ∀ k < (s.sealedToken n).length, u.dataIn.byte k = (s.sealedToken n).getD k 0#8 :=
    sealedToken_length s n hn ▸ hin
  have hiv : u.dataIn.bytes 0 16 = s.initVector := by
    simpa [State.sealedToken] using bytes_of_byte_eq_append u.dataIn [] s.initVector
      (s.sealedBody n ++ integrityTag s.actIntKey (s.input n) s.initVector) (by simpa [State.sealedToken] using htoken)
  have hbody : u.dataIn.bytes 16 n = s.sealedBody n := by
    have h := bytes_of_byte_eq_append u.dataIn _ _ _ htoken
    rwa [initVector_length, hbodyLen] at h
  have htag : u.dataIn.bytes (16 + n) 4 = integrityTag s.actIntKey (s.input n) s.initVector := by
    simpa [hbodyLen] using bytes_of_byte_eq_append u.dataIn (s.initVector ++ s.sealedBody n)
      (integrityTag s.actIntKey (s.input n) s.initVector) [] (by simpa [State.sealedToken] using htoken)
  have hpayload : u.openedPayload n = s.input n := by
    rw [State.openedPayload, hiv, hbody, he, State.sealedBody]
    exact xorPad_xorPad _ _ (by rw [input_length, keystreamPad_length]; exact hn)
  refine ⟨hpayload, ?_⟩
  rw [State.tagVerifies, State.openedHmac, hpayload, hiv, hi, htag, ctEqual4_iff]
  exact fun k _ => rfl

/-- Settles O30: the tag of the token is the one DECRYPT computes, and the pad undoes itself. -/
theorem roundTripAndDeterminism : Obligations.RoundTripAndDeterminism := by
  intro s ml n hk hty hiv hlen
  obtain ⟨hml, hn⟩ := hty.lengths
  have hout := dataOut_encrypt s ml n hk hty hiv hlen
  refine ⟨encrypt s, exec_encrypt s, ?_, ?_, ?_, ?_⟩
  · rw [encrypt_eq s ml n hk hty hiv hlen]
    rfl
  · rw [outLen_encrypt s ml n hk hty hiv hlen, BitVec.toNat_ofNat, Nat.mod_eq_of_lt (by omega)]
  · intro u huk hact he hi hulen hin
    obtain ⟨hpayload, htag⟩ := opened_of_sealedToken (n := n) (by omega) he hi fun k hk =>
      (hin k (by omega)).trans (hout k)
    refine ⟨decrypt u, exec_decrypt u, ?_⟩
    rw [decrypt_eq u ml n huk (hact ▸ hty) hulen, if_pos htag]
    refine ⟨rfl, ?_, fun k hk => ?_⟩
    · rw [complete_outLen, BitVec.toNat_ofNat, Nat.mod_eq_of_lt (by omega)]
    · rw [complete_dataOut, byte_ofBytes, getD_append_zeros, hpayload, State.input, bytes_getD _ _ _ _ hk, Nat.zero_add]
  · intro u v huk hact he hi hulen hivb hin hx
    cases hx
    have huiv : u.ivLen.toNat = 16 := by rw [State.ivLen, hulen]; exact hiv
    have huin : u.inLen.toNat = n := by rw [State.inLen, hulen]; exact hlen
    refine ⟨?_, fun k => ?_⟩
    · rw [outLen_encrypt u ml n huk (hact ▸ hty) huiv huin, outLen_encrypt s ml n hk hty hiv hlen]
    · rw [hout k, dataOut_encrypt u ml n huk (hact ▸ hty) huiv huin, sealedToken_congr he hi hivb hin]

end Sys2Proof.Machine
end

section
/-! PROOFS. The statements about the host's accesses (41_host_access.md): reads, writes, the busy gate, the host-address
form, and what no access shows of the block's secrets. -/

namespace Sys2Proof.Machine

/-! ### The targets of the windows -/

/-- A word offset inside a window reaches that window's word (R22). -/
theorem accessTarget?_of_window (off : Offset) (b : Buffer) (h4 : off.toNat % 4 = 0) (lo : b.base ≤ off.toNat)
    (hi : off.toNat < b.base + b.size) : accessTarget? off 4 = some (.buf b (off.toNat - b.base)) := by
  rw [accessTarget?_four]
  obtain ⟨-, -, -, -, -, -, encKey, intKey, iv, dataIn, dataOut, -⟩ := target?_of_range off h4
  cases b with
  | encKey => exact encKey lo hi
  | intKey => exact intKey lo hi
  | iv => exact iv lo hi
  | dataIn => exact dataIn lo hi
  | dataOut => exact dataOut lo hi

/-- Every window stands behind the registers and inside the 4096 bytes, word-aligned (R22). -/
theorem Buffer.base_bounds (b : Buffer) : 0x100 ≤ b.base ∧ b.base + b.size ≤ 0x240 ∧ b.base % 4 = 0 := by
  cases b <;> decide

theorem Buffer.wordOffset_toNat (b : Buffer) (w : Nat) (hw : 4 * w + 4 ≤ b.size) :
    (b.wordOffset w).toNat = b.base + 4 * w := by
  have := b.base_bounds
  rw [Buffer.wordOffset, BitVec.toNat_ofNat]
  omega

/-- The offset of a window's word reaches that word. -/
theorem accessTarget?_wordOffset (b : Buffer) (w : Nat) (hw : 4 * w + 4 ≤ b.size) :
    accessTarget? (b.wordOffset w) 4 = some (.buf b (4 * w)) := by
  have hb := b.base_bounds
  have ho := b.wordOffset_toNat w hw
  rw [accessTarget?_of_window _ b (by omega) (by omega) (by omega), ho, Nat.add_sub_cancel_left]

/-! ### Reads -/

/-- No register's word depends on the model's own fields. -/
theorem regRead_withInputs (tg : Target) (s : State) (es : List Event) (r : Reply) :
    regRead tg { s with events := es, reply := r } = regRead tg s := by
  cases tg with
  | buf b k => cases b <;> rfl
  | _ => rfl

/-- A read of CMD or of a key window returns 0 (R40, R41, R184). -/
theorem step_read_writeOnly (s : State) (off : Offset) (es : List Event) (h4 : off.toNat % 4 = 0)
    (hr : off.toNat = 0x004 ∨ (0x100 ≤ off.toNat ∧ off.toNat < 0x180)) (hm : HostMoves s (.read off 4) es) :
    step s = .next { s with events := es, reply := .data 0#32 } := by
  have target : accessTarget? off 4 = some .cmd ∨ (∃ k, accessTarget? off 4 = some (.buf .encKey k)) ∨
      ∃ k, accessTarget? off 4 = some (.buf .intKey k) := by
    rcases hr with h | ⟨lo, hi⟩
    · obtain rfl : off = 0x004#12 := BitVec.eq_of_toNat_eq h
      exact .inl (by decide)
    · rcases Nat.lt_or_ge off.toNat 0x140 with h | h
      · exact .inr (.inl ⟨_, accessTarget?_of_window off .encKey h4 lo h⟩)
      · exact .inr (.inr ⟨_, accessTarget?_of_window off .intKey h4 h hi⟩)
  rcases target with ht | ⟨k, ht⟩ | ⟨k, ht⟩ <;> exact step_read s off 4 es _ hm ht

/-- A read of a window's word is one step that answers that word (R70, R180). -/
theorem step_read_word (s : State) (b : Buffer) (w : Nat) (es : List Event) (hw : 4 * w + 4 ≤ b.size)
    (hm : HostMoves s (.read (b.wordOffset w) 4) es) :
    step s = .next { s with events := es, reply := .data (regRead (.buf b (4 * w)) s) } := by
  rw [step_read s _ 4 es _ hm (accessTarget?_wordOffset b w hw), regRead_withInputs _ s es s.reply]

theorem setWidth_eq_zeros_append (x : BitVec 3) : x.setWidth 32 = 0#29 ++ x :=
  BitVec.setWidth_eq_append (by decide)

/-- Settles O14: each offset's target decides the word that its read returns, and an offset without a target has none. -/
theorem readsReturnTheRegisters : Obligations.ReadsReturnTheRegisters := by
  intro s es
  refine ⟨fun hm => step_read s _ 4 es .id hm (by decide), fun hm => step_read s _ 4 es .cmd hm (by decide),
    fun hm => step_read s _ 4 es .status hm (by decide), fun hm => ?intStatus, fun hm => ?intEnable,
    fun hm => step_read s _ 4 es .len hm (by decide), fun w hw hm => ?keys,
    fun w hw => step_read_word s .iv w es (show 4 * w + 4 ≤ 16 by omega),
    fun w hw => step_read_word s .dataIn w es (show 4 * w + 4 ≤ 64 by omega),
    fun w hw => step_read_word s .dataOut w es (show 4 * w + 4 ≤ 64 by omega), fun off size hm hr => ?refused⟩
  case intStatus =>
    rw [step_read s _ 4 es .intStatus hm (by decide), regRead_intStatus, setWidth_eq_zeros_append]
  case intEnable =>
    rw [step_read s _ 4 es .intEnable hm (by decide), regRead_intEnable, setWidth_eq_zeros_append]
  case keys =>
    have ho : (BitVec.ofNat 12 (0x100 + 4 * w)).toNat = 0x100 + 4 * w := by rw [BitVec.toNat_ofNat]; omega
    exact step_read_writeOnly s _ es (by omega) (by omega) hm
  case refused =>
    exact step_read_refused s off size es hm (accessTarget?_eq_none off size (by omega))

/-! ### Writes -/

/-- Settles O12: the model's register write leaves the state alone at a read-only target. -/
theorem readOnlyAndWriteOnlyRegisters : Obligations.ReadOnlyAndWriteOnlyRegisters := by
  intro s off es h4
  refine ⟨fun v hm hr => ?_, fun hm hr => step_read_writeOnly s off es h4 hr hm⟩
  rcases hr with h | h | ⟨lo, hi⟩
  · obtain rfl : off = 0x000#12 := BitVec.eq_of_toNat_eq h
    exact step_write s _ v es .id hm (by decide) (.inl (by decide))
  · obtain rfl : off = 0x008#12 := BitVec.eq_of_toNat_eq h
    exact step_write s _ v es .status hm (by decide) (.inl (by decide))
  · exact step_write s off v es _ hm (accessTarget?_of_window off .dataOut h4 lo hi) (.inl (by omega))

/-- The targets whose writes the busy gate drops (R186); of CMD, all words but SRESET. -/
def Target.gated : Target → Bool
  | .cmd | .len => true
  | .buf b _ => !b.readOnly
  | .id | .status | .intStatus | .intEnable => false

/-- A gated write while BUSY = 1 is dropped (R186). -/
theorem regWrite_of_busy (tg : Target) (v : Word) (s : State) (hg : tg.gated = true) (hv : tg = .cmd → v ≠ sresetWord)
    (hb : s.busy = true) : regWrite tg v s = dropWrite s := by
  cases tg with
  | cmd => rw [regWrite, if_neg (hv rfl), if_pos hb]
  | len => rw [regWrite, if_pos hb]
  | buf b k =>
    have hro : b.readOnly = false := by simpa [Target.gated] using hg
    rw [regWrite, if_neg (Bool.eq_false_iff.1 hro), if_pos hb]
  | _ => cases hg

/-- The offsets that R186 lists are those of gated targets. -/
theorem exists_gated_target (off : Offset) (h4 : off.toNat % 4 = 0)
    (hr : off.toNat = 0x004 ∨ off.toNat = 0x014 ∨ (0x100 ≤ off.toNat ∧ off.toNat < 0x190) ∨
      (0x1C0 ≤ off.toNat ∧ off.toNat < 0x200)) :
    ∃ tg, accessTarget? off 4 = some tg ∧ tg.gated = true := by
  rcases hr with h | h | ⟨lo, hi⟩ | ⟨lo, hi⟩
  · obtain rfl : off = 0x004#12 := BitVec.eq_of_toNat_eq h
    exact ⟨.cmd, by decide, rfl⟩
  · obtain rfl : off = 0x014#12 := BitVec.eq_of_toNat_eq h
    exact ⟨.len, by decide, rfl⟩
  · rcases Nat.lt_or_ge off.toNat 0x140 with h1 | h1
    · exact ⟨_, accessTarget?_of_window off .encKey h4 lo h1, rfl⟩
    rcases Nat.lt_or_ge off.toNat 0x180 with h2 | h2
    · exact ⟨_, accessTarget?_of_window off .intKey h4 h1 h2, rfl⟩
    · exact ⟨_, accessTarget?_of_window off .iv h4 h2 hi, rfl⟩
  · exact ⟨_, accessTarget?_of_window off .dataIn h4 lo hi, rfl⟩

/-- Settles O10: every listed offset has a gated target, and a gated write while BUSY is dropped. -/
theorem busyGateDropsWrites : Obligations.BusyGateDropsWrites := by
  intro s off v es hm hb h4 hr
  obtain ⟨tg, ht, hg⟩ := exists_gated_target off h4 (hr.imp_left And.left)
  have hv : off.toNat ≠ 0x004 ∨ v ≠ sresetWord := by
    rcases hr with ⟨-, hv⟩ | hr
    · exact .inr hv
    · exact .inl (by omega)
  have hcmd : tg = .cmd → v ≠ sresetWord := by
    rintro rfl
    obtain ⟨-, rfl⟩ := offset_of_accessTarget? off 4 .cmd ht
    exact hv.resolve_left fun h => h rfl
  have hdrop : regWrite tg v { s with events := es, reply := .written } =
      dropWrite { s with events := es, reply := .written } := regWrite_of_busy tg v _ hg hcmd hb
  rw [step_write s off v es tg hm ht hv, hdrop]
  rfl

/-- Settles O11: none of the three writes looks at BUSY. -/
theorem writesAcceptedWhileBusy : Obligations.WritesAcceptedWhileBusy := by
  intro s v es
  refine ⟨fun hm => ⟨clearBits s.intStatus v, ?_, fun i hi => getLsbD_clearBits _ v i hi⟩,
    fun hm => ⟨v.extractLsb' 0 3, ?_, fun i hi => ?_⟩,
    fun hm => ⟨_, step_sresetWrite s es hm, resetValues_toReset _, rfl⟩⟩
  · exact step_write s _ v es .intStatus hm (by decide) (.inl (by decide))
  · exact step_write s _ v es .intEnable hm (by decide) (.inl (by decide))
  · rw [BitVec.getLsbD_extractLsb', decide_eq_true hi, Nat.zero_add, Bool.true_and]

/-- A write to a word of a writable window while BUSY = 0 stores that word and changes no other state (R182, R183). -/
theorem step_write_word (s : State) (b : Buffer) (w : Nat) (v : Word) (es : List Event) (hw : 4 * w + 4 ≤ b.size)
    (hd : b.readOnly = false) (hb : s.busy = false) (hm : HostMoves s (.write (b.wordOffset w) 4 v) es) :
    step s = .next (State.setBuf { s with events := es, reply := .written } b ((s.buf b).setWord (4 * w) v)) := by
  have hbase := b.base_bounds
  have ho := b.wordOffset_toNat w hw
  have hbuf : State.buf { s with events := es, reply := .written } b = s.buf b := by cases b <;> rfl
  rw [step_write s _ v es _ hm (accessTarget?_wordOffset b w hw) (.inl (by omega)), regWrite,
    if_neg (Bool.eq_false_iff.1 hd), if_neg (Bool.eq_false_iff.1 hb), hbuf]

/-- The four bytes that a word write stores, one by one (R70). -/
theorem byte_setWord_eq (m : Memory) (k i : Nat) (v : Word) :
    (m.setWord k v).byte i =
      if i = k then v.extractLsb' 24 8 else if i = k + 1 then v.extractLsb' 16 8
      else if i = k + 2 then v.extractLsb' 8 8 else if i = k + 3 then v.extractLsb' 0 8 else m.byte i := by
  rw [byte_setWord]
  by_cases hin : k ≤ i ∧ i < k + 4
  · obtain ⟨j, rfl⟩ := Nat.exists_eq_add_of_le hin.1
    have hj : j < 4 := by omega
    rw [if_pos hin, Nat.add_sub_cancel_left]
    interval_cases j <;> simp [be32]
  · rw [if_neg hin, if_neg (by omega), if_neg (by omega), if_neg (by omega), if_neg (by omega)]

/-- Settles O16: a word write stores its four bytes in its own window. -/
theorem bufferWritesChangeFourBytes : Obligations.BufferWritesChangeFourBytes := by
  intro s w v es hb
  refine ⟨fun hw hm => ⟨_, step_write_word s .encKey w v es (show 4 * w + 4 ≤ 64 by omega) rfl hb hm, ?_⟩,
    fun hw hm => ⟨_, step_write_word s .intKey w v es (show 4 * w + 4 ≤ 64 by omega) rfl hb hm, ?_⟩,
    fun hw hm => ⟨_, step_write_word s .iv w v es (show 4 * w + 4 ≤ 16 by omega) rfl hb hm, ?_⟩,
    fun hw hm => ⟨_, step_write_word s .dataIn w v es (show 4 * w + 4 ≤ 64 by omega) rfl hb hm, ?_⟩, fun hm => ?len⟩
  case len =>
    rw [step_write s _ v es .len hm (by decide) (.inl (by decide)), regWrite, if_neg (Bool.eq_false_iff.1 hb)]
  all_goals exact fun k => byte_setWord_eq _ (4 * w) k v

/-- Settles O7: the SRESET write leaves what SRESET leaves. -/
theorem sresetWriteRunsSreset : Obligations.SresetWriteRunsSreset := fun s es hm =>
  (step_sresetWrite s es hm).trans (exec_sreset _).symm

/-! ### The STATUS word -/

theorem bitWord_eq_setWidth (b : Bool) : bitWord b = (BitVec.ofBool b).setWidth 32 := by cases b <;> rfl

/-- Seven fields shifted to their places are the fields side by side, bit 7 and bits [31:24] being 0. -/
theorem shifted_fields_eq_append (outLen : BitVec 8) (lastOp err : BitVec 4) (type : BitVec 3) (state : BitVec 2)
    (keyed busy : BitVec 1) :
    outLen.setWidth 32 <<< 16 ||| lastOp.setWidth 32 <<< 12 ||| err.setWidth 32 <<< 8 ||| type.setWidth 32 <<< 4 |||
        state.setWidth 32 <<< 2 ||| keyed.setWidth 32 <<< 1 ||| busy.setWidth 32 =
      0#8 ++ outLen ++ lastOp ++ err ++ 0#1 ++ type ++ state ++ keyed ++ busy := by
  apply BitVec.eq_of_getLsbD_eq
  intro i hi
  simp only [BitVec.getLsbD_or, BitVec.getLsbD_shiftLeft, BitVec.getLsbD_append, BitVec.getLsbD_setWidth]
  grind

/-- Settles O15: the STATUS word is its fields side by side, and the model's codes are the spec's numbers. -/
theorem statusWordLayout : Obligations.StatusWordLayout := by
  intro s
  simp only [State.statusWord, bitWord_eq_setWidth, shifted_fields_eq_append]
  rfl

/-! ### Host addresses -/

/-- An address inside a block's window is the offset behind the block's base (R71, R190). -/
theorem hostOffset?_add (base : Nat) (off : Offset) : hostOffset? base (base + off.toNat) = some off := by
  have hlt : off.toNat < Config.windowBytes := off.isLt
  rw [hostOffset?, if_pos ⟨Nat.le_add_right _ _, Nat.add_lt_add_left hlt base⟩, Nat.add_sub_cancel_left,
    BitVec.ofNat_toNat, BitVec.setWidth_eq]

/-- An address on either side of a block's window is not the block's (R71). -/
theorem hostOffset?_eq_none (base addr : Nat) (h : addr < base ∨ base + Config.windowBytes ≤ addr) :
    hostOffset? base addr = none := if_neg (by omega)

/-- Settles O49: the address form finds the offset, or finds no block. -/
theorem hostAddressReachesItsOffset : Obligations.HostAddressReachesItsOffset := by
  refine fun k s => ⟨Nat.mul_mod_right 4096 _, fun off size => ?_, fun addr size h => ?_⟩
  · simp only [memRead, memWrite, hostOffset?_add, implies_true, and_self]
  · simp only [memRead, memWrite, hostOffset?_eq_none _ _ h, implies_true, and_self]

/-! ### Secrets: hiding them commutes with all a host can see or do -/

/-- The engine's turn, named in the inputs or the only move left (R211). -/
theorem nextAction_of_engineMoves (s : State) (es : List Event) (hm : EngineMoves s es) :
    nextAction s = engineTurn { s with events := es } := by
  rcases hm with ⟨he, rfl⟩ | he
  · have hs : { s with events := [] } = s := by rw [← he]
    simp only [nextAction, he, hs]
  · simp only [nextAction, he]

theorem engineTurn_idle (s : State) (hb : s.busy = false) : engineTurn s = .done s := if_neg (Bool.eq_false_iff.1 hb)

theorem engineTurn_busy (s : State) (i : Instr) (hb : s.busy = true) (hp : s.pendingCommand = some i) :
    engineTurn s = .run i s := by
  rw [engineTurn, if_pos hb, hp]

/-- While BUSY = 0 the engine's turn only passes (R211). -/
theorem step_engineMoves_idle (s : State) (es : List Event) (hm : EngineMoves s es) (hb : s.busy = false) :
    step s = .next { s with events := es } := by
  rw [step, nextAction_of_engineMoves s es hm, engineTurn_idle { s with events := es } hb]

/-- While BUSY = 1 the engine's turn runs the command in flight (R211). -/
theorem step_engineMoves_busy (s : State) (es : List Event) (i : Instr) (hm : EngineMoves s es) (hb : s.busy = true)
    (hp : s.pendingCommand = some i) : step s = exec i { s with events := es } := by
  rw [step, nextAction_of_engineMoves s es hm, engineTurn_busy { s with events := es } i hb hp]

/-- No register shows a secret (R184, R280). -/
theorem regRead_hideSecrets (tg : Target) (s : State) : regRead tg s.hideSecrets = regRead tg s := by
  cases tg with
  | buf b k => cases b <;> rfl
  | _ => rfl

/-- irq does not depend on a secret (R50). -/
theorem irq_hideSecrets (s : State) : s.hideSecrets.irq = s.irq := rfl

/-- A word stored in a staging window is itself a secret, and one stored elsewhere goes into a public array. -/
theorem setBuf_hideSecrets (b : Buffer) (k : Nat) (v : Word) (s : State) :
    (s.hideSecrets.setBuf b ((s.hideSecrets.buf b).setWord k v)).hideSecrets =
      (s.setBuf b ((s.buf b).setWord k v)).hideSecrets := by
  cases b <;> rfl

/-- What a register write leaves outside the secrets does not depend on them. -/
theorem regWrite_hideSecrets (tg : Target) (v : Word) (s : State) :
    (regWrite tg v s.hideSecrets).hideSecrets = (regWrite tg v s).hideSecrets := by
  have hbusy : s.hideSecrets.busy = s.busy := rfl
  cases tg with
  | id | status | intStatus | intEnable => rfl
  | len => cases hb : s.busy <;> simp only [regWrite, hbusy, hb] <;> rfl
  | cmd =>
    by_cases hv : v = sresetWord
    · simp only [regWrite, if_pos hv]; rfl
    · cases hb : s.busy with
      | true => simp only [regWrite, if_neg hv, hbusy, hb]; rfl
      | false =>
        simp only [regWrite, if_neg hv, hbusy, hb, issue]
        cases decode v <;> rfl
  | buf b k =>
    cases hr : b.readOnly with
    | true => simp only [regWrite, hr]; rfl
    | false =>
      cases hb : s.busy with
      | true => simp only [regWrite, hr, hbusy, hb]; rfl
      | false => simp only [regWrite, hr, hbusy, hb]; exact setBuf_hideSecrets b k v s

/-- What a host access leaves outside the secrets, its answer included, does not depend on them (R184). -/
theorem hostAccess_hideSecrets (a : Access) (s : State) :
    (hostAccess a s.hideSecrets).hideSecrets = (hostAccess a s).hideSecrets := by
  cases a with
  | read off size =>
    cases ht : accessTarget? off size with
    | none => simp only [hostAccess, ht]; rfl
    | some tg => simp only [hostAccess, ht, regRead_hideSecrets]; rfl
  | write off size v =>
    cases ht : accessTarget? off size with
    | none => simp only [hostAccess, ht]; rfl
    | some tg => simp only [hostAccess, ht]; exact regWrite_hideSecrets tg v { s with reply := .written }

/-- CONFIGURE copies staged keys to active keys, and looks only at TYPE and LEN for the rest (R221). -/
theorem configure_hideSecrets (ty : BitVec 3) (s : State) :
    (configure ty s.hideSecrets).hideSecrets = (configure ty s).hideSecrets := by
  have henc : s.hideSecrets.encKeyLen = s.encKeyLen := rfl
  have hint : s.hideSecrets.intKeyLen = s.intKeyLen := rfl
  unfold configure
  rw [henc, hint]
  cases formatRow ty with
  | none => rfl
  | some f => dsimp only; split <;> rfl

/-- A command other than DECRYPT and ENCRYPT leaves outside the secrets nothing that depends on them. -/
theorem exec_hideSecrets (i : Instr) (s t : State) (hd : i ≠ .decrypt) (he : i ≠ .encrypt) (h : exec i s = .next t) :
    ∃ t₀, exec i s.hideSecrets = .next t₀ ∧ t₀.hideSecrets = t.hideSecrets := by
  cases i with
  | decrypt => exact absurd rfl hd
  | encrypt => exact absurd rfl he
  | configure ty => cases h; exact ⟨_, rfl, configure_hideSecrets ty s⟩
  | nop | release | sreset => cases h; exact ⟨_, rfl, rfl⟩

/-- The next step completes neither DECRYPT nor ENCRYPT. -/
def State.CompletesNoToken (s : State) : Prop :=
  (∃ es, EngineMoves s es) → s.busy = true → s.pendingCommand ≠ some .decrypt ∧ s.pendingCommand ≠ some .encrypt

/-- Which command completes next does not depend on a secret. -/
theorem completesNoToken_hideSecrets (s : State) : s.hideSecrets.CompletesNoToken ↔ s.CompletesNoToken := Iff.rfl

/-- A step that completes no DECRYPT or ENCRYPT leaves outside the secrets nothing that depends on them (R280): the state
with its secrets blanked takes the same step. -/
theorem step_hideSecrets (s t : State) (hc : s.CompletesNoToken) (h : step s = .next t) :
    ∃ t₀, step s.hideSecrets = .next t₀ ∧ t₀.hideSecrets = t.hideSecrets := by
  rcases step_cases s t h with ⟨es, hm, hb, rfl⟩ | ⟨es, i, hm, hb, hp, -, hx⟩ | ⟨a, es, hm, ha, rfl⟩ |
    ⟨es, hm, rfl⟩ | ⟨es, hm, rfl⟩
  · exact ⟨_, step_engineMoves_idle s.hideSecrets es hm hb, rfl⟩
  · obtain ⟨hd, he⟩ := hc ⟨es, hm⟩ hb
    rw [step_engineMoves_busy s.hideSecrets es i hm hb hp]
    exact exec_hideSecrets i _ t (fun hi => hd (hi ▸ hp)) (fun hi => he (hi ▸ hp)) hx
  · exact ⟨_, step_hostAccess s.hideSecrets a es hm ha, hostAccess_hideSecrets a { s with events := es }⟩
  · exact ⟨_, step_sresetWrite s.hideSecrets es hm, rfl⟩
  · exact ⟨_, step_hardwareReset s.hideSecrets es hm, rfl⟩

/-- Settles O40: two states alike but for their secrets are one state with its secrets blanked, and that state tells what
both show and what both become. -/
theorem secretsStayHidden : Obligations.SecretsStayHidden := by
  intro s u h
  have hsame : s.hideSecrets = u.hideSecrets := h
  refine ⟨fun r => ?_, ?_, fun hc t t' hs hu => ?_⟩
  · rw [← regRead_hideSecrets r s, hsame, regRead_hideSecrets]
  · rw [← irq_hideSecrets s, hsame, irq_hideSecrets]
  · have hcu : u.CompletesNoToken :=
      (completesNoToken_hideSecrets u).1 (hsame ▸ (completesNoToken_hideSecrets s).2 hc)
    obtain ⟨t₀, hs₀, ht⟩ := step_hideSecrets s t hc hs
    obtain ⟨u₀, hu₀, ht'⟩ := step_hideSecrets u t' hcu hu
    rw [hsame, hu₀] at hs₀
    cases hs₀
    exact ht.symm.trans ht'

end Sys2Proof.Machine
end

section
/-! PROOFS. The statements about the commands (42_commands.md): the issue and the engine's turn, the meaning of each command,
and that no run from reset stops or hangs. -/

namespace Sys2Proof.Machine

/-! ### The record of a completion -/

/-- What a completion with OK records (R212). -/
theorem complete_ok (s : State) :
    complete .ok s = { s with errCode := .ok, busy := false, intStatus := s.intStatus ||| 0b001#3 } := rfl

/-- The bits a completion sets, as DONE alone or DONE and ERR (R212). -/
theorem or_resultBits (bits : BitVec 3) (e : ResultCode) :
    bits ||| resultBits e = if e = .ok then bits ||| 0b001#3 else bits ||| 0b011#3 := by
  cases e <;> rfl

/-- What every command of the engine leaves alone (R212). -/
theorem CommandEffect.frame {i : Instr} {s t : State} (h : CommandEffect i s t) :
    t.lastOp = s.lastOp ∧ t.pendOp = s.pendOp ∧ t.pendType = s.pendType ∧ t.reply = s.reply := by
  cases h <;> exact ⟨rfl, rfl, rfl, rfl⟩

/-- An error records its code and writes nothing else but SCRATCH (R212). -/
theorem CommandEffect.of_error {i : Instr} {s t : State} (h : CommandEffect i s t) (he : t.errCode ≠ .ok) :
    t = { s with scratch := t.scratch, errCode := t.errCode, busy := false, intStatus := s.intStatus ||| 0b011#3 } := by
  cases h with
  | status e => exact complete_error e s he
  | tagFailure sc _ _ _ => exact complete_error _ _ he
  | _ => exact absurd rfl he

/-- DECRYPT is the only command whose error writes SCRATCH (R212, R230). -/
theorem scratch_of_error {i : Instr} {s t : State} (hi : i ≠ .sreset) (hd : i ≠ .decrypt) (hx : exec i s = .next t)
    (he : t.errCode ≠ .ok) : t.scratch = s.scratch := by
  cases i with
  | nop => cases hx; rfl
  | configure ty =>
    cases hx
    rcases configure_cases ty s with ⟨-, h⟩ | ⟨-, -, h⟩ | ⟨-, -, -, h⟩ <;> rw [h] <;> rfl
  | decrypt => exact absurd rfl hd
  | encrypt =>
    cases hx
    rcases encrypt_cases s with ⟨e, -, h⟩ | ⟨f, sc, tok, -, -, -, -, h, -⟩ <;> rw [h] at he ⊢
    · rfl
    · exact absurd rfl he
  | release => cases hx; exact absurd rfl he
  | sreset => exact absurd rfl hi

/-- Settles O20, from what a command can do; that SCRATCH is DECRYPT's needs the command itself. -/
theorem everyCommandCompletes : Obligations.EveryCommandCompletes := by
  intro i s hi
  obtain ⟨t, hx⟩ := exists_exec_eq_next i s
  have heffect := commandEffect_of_exec i s t hi hx
  obtain ⟨hbusy, hbits, henable⟩ := heffect.completes
  obtain ⟨hlast, hop, htype, hreply⟩ := heffect.frame
  refine ⟨t, hx, hbusy, hbits.trans (or_resultBits _ _), hlast, henable, hop, htype, heffect.events_eq, hreply,
    fun he => ⟨heffect.of_error he, ?_⟩⟩
  by_cases hd : i = .decrypt
  · exact .inr hd
  · exact .inl (scratch_of_error hi hd hx he)

/-! ### The issue and the engine's turn -/

/-- Settles O6: the engine's turn runs the command in flight, and only passes while BUSY = 0. -/
theorem engineRunsTheCommandInFlight : Obligations.EngineRunsTheCommandInFlight :=
  ⟨fun s es i hm hb hd hi => step_engineMoves_busy s es i hm hb ((pendingCommand_eq_some s i).2 ⟨hd, hi⟩),
    step_engineMoves_idle⟩

/-- A word other than SRESET written to CMD while BUSY = 0 is one step: its issue (R182, R210). -/
theorem step_write_cmd (s : State) (v : Word) (es : List Event) (hm : HostMoves s (.write 0x004#12 4 v) es)
    (hb : s.busy = false) (hv : v ≠ sresetWord) :
    step s = .next (issue v { s with events := es, reply := .written }) := by
  rw [step_write s _ v es .cmd hm (by decide) (.inr hv), regWrite, if_neg hv, if_neg (Bool.eq_false_iff.1 hb)]

/-- A command's word written to CMD while BUSY = 0 is one step that latches it (R210). -/
theorem step_issue (s : State) (i : Instr) (es : List Event) (hm : HostMoves s (.write 0x004#12 4 (encode i)) es)
    (hb : s.busy = false) (hi : i ≠ .sreset) :
    step s = .next (latch (encode i) { s with events := es, reply := .written }) := by
  rw [step_write_cmd s _ es hm hb (encode_ne_sresetWord hi), issue, decode_encode]

/-- A command latched is what the engine's turn runs (R210, R211). -/
theorem step_latch (s : State) (i : Instr) (es : List Event) (hm : EngineMoves s es) (hi : i ≠ .sreset) :
    step (latch (encode i) s) = exec i { latch (encode i) s with events := es } :=
  step_engineMoves_busy (latch (encode i) s) es i hm rfl (pendingCommand_latch_encode i s hi)

/-- Settles O9: a valid word decodes and is latched, any other is refused. -/
theorem idleCommandWriteIssuesOrRefuses : Obligations.IdleCommandWriteIssuesOrRefuses := by
  intro s v es hm hb hv
  rw [step_write_cmd s v es hm hb hv]
  rcases issue_cases v { s with events := es, reply := .written } with ⟨i, hd, h⟩ | ⟨e, hd, h⟩ <;> rw [h]
  · have hvalid := (exists_decode_iff_validWord v).1 ⟨i, hd⟩
    exact ⟨fun _ => rfl, fun hn => Bool.noConfusion (hvalid.symm.trans hn)⟩
  · have hinvalid := validWord_of_decode_error v e hd
    exact ⟨fun hn => Bool.noConfusion (hinvalid.symm.trans hn), fun _ => rfl⟩

/-- Settles O21: the write latches the word, and the engine's turn finds it in PEND. -/
theorem issuedCommandRunsAtTheEnginesTurn : Obligations.IssuedCommandRunsAtTheEnginesTurn := by
  intro s v i es hm hb hd hi
  obtain rfl := encode_of_decode v i hd
  exact ⟨_, step_issue s i _ hm hb hi, rfl, rfl, rfl, rfl, step_latch _ i es (.inr rfl) hi⟩

/-- Settles O8: the engine's command stands in PEND with the engine's turn next, SRESET in the host's next write. -/
theorem placedCommandRunsNext : Obligations.PlacedCommandRunsNext := by
  intro s w i hd
  obtain rfl := encode_of_decode w i hd
  have hplace : s.withFetchWord 32 (encode i).toNat = placeCommand (encode i) s := by
    rw [State.withFetchWord, Nat.mod_eq_of_lt (encode i).isLt, BitVec.ofNat_toNat, BitVec.setWidth_eq]
  rw [hplace, placeCommand, decode_encode]
  by_cases hi : i = .sreset
  · subst hi
    rw [if_pos rfl]
    exact step_sresetWrite { s with events := .bus (.write 0x004#12 4 sresetWord) :: s.events } s.events rfl
  · rw [if_neg hi]
    have hrun := step_latch { s with events := .engine :: s.events } i s.events (.inr rfl) hi
    cases i with
    | sreset => exact absurd rfl hi
    | _ => exact hrun

/-! ### NOP, RELEASE and SRESET -/

/-- Settles O22: NOP's word is issued, and its completion is `Complete(OK)`. -/
theorem nopChangesOnlyTheStatus : Obligations.NopChangesOnlyTheStatus := by
  obtain ⟨hword, -⟩ := encode_words
  refine ⟨hword, exec_nop, fun s es hm hb => ?_⟩
  rw [← hword] at hm
  refine ⟨_, step_issue s .nop _ hm hb (by decide), rfl, ?_⟩
  rw [step_latch _ .nop es (.inr rfl) (by decide), exec_nop, complete_ok, latch_encode, ← hb]
  rfl

/-- Settles O28: an array of zeros has nothing listed. -/
theorem releaseZeroesAllMaterial : Obligations.ReleaseZeroesAllMaterial :=
  ⟨by decide, fun s => by rw [exec_release, released, complete_ok]⟩

/-- Settles O29: the soft reset keeps the model's own two fields and takes all others from the reset state. -/
theorem sresetClearsEverything : Obligations.SresetClearsEverything := fun s => by
  rw [exec_sreset, toReset]

/-! ### CONFIGURE -/

/-- A string read from the start of an array, byte by byte. -/
theorem bytes_zero_getD (m : Memory) (n k : Nat) (h : k < n) : (m.bytes 0 n).getD k 0#8 = m.byte k := by
  rw [bytes_getD _ _ _ _ h, Nat.zero_add]

/-- Settles O23: the three things CONFIGURE can do, each under its own condition. -/
theorem configureCaseByCase : Obligations.ConfigureCaseByCase := by
  intro s t ek ik
  have hek : s.encKeyLen.toNat = ek := rfl
  have hik : s.intKeyLen.toNat = ik := rfl
  rw [exec_configure]
  rcases configure_cases t s with ⟨ht, h⟩ | ⟨ht, hl, h⟩ | ⟨ht, hle, hli, h⟩ <;> rw [h]
  · rw [complete_error _ s (by decide)]
    exact ⟨fun _ => rfl, fun h4 => by omega, fun h4 => by omega⟩
  · rw [complete_error _ s (by decide)]
    exact ⟨fun h4 => by omega, fun _ _ => rfl, fun _ _ _ => by omega⟩
  · exact ⟨fun h4 => by omega, fun _ hl => by omega, fun _ _ _ => ⟨s.stagedEncKey, s.stagedIntKey, rfl,
      bytes_length _ _ _, bytes_zero_getD _ _, bytes_length _ _ _, bytes_zero_getD _ _⟩⟩

/-! ### The bytes of a transformed string, of SCRATCH and of a token -/

/-- A byte of two strings side by side. -/
theorem getD_append_eq_ite (a b : List Byte) (k : Nat) :
    (a ++ b).getD k 0#8 = if k < a.length then a.getD k 0#8 else b.getD (k - a.length) 0#8 := by
  split
  next h => exact List.getD_append _ _ _ _ h
  next h => exact List.getD_append_right _ _ _ _ (Nat.not_lt.1 h)

/-- The XOR transform of a string read from an array, byte by byte and 0 beyond it (R149). -/
theorem xorPad_bytes_getD (m : Memory) (j n : Nat) (pad : List Byte) (hn : n ≤ pad.length) (k : Nat) :
    (xorPad (m.bytes j n) pad).getD k 0#8 = if k < n then m.byte (j + k) ^^^ pad.getD k 0#8 else 0#8 := by
  split
  next h => rw [xorPad_getD _ _ _ (by rw [bytes_length]; exact h) (by omega), bytes_getD _ _ _ _ h]
  next h => exact List.getD_eq_default _ _ (by rw [xorPad_length, bytes_length]; omega)

/-- SCRATCH's four parts at their places (R48). -/
theorem scratchImage_getD (pad body full : List Byte) (hp : pad.length = 20) (hb : body.length ≤ 16)
    (hf : full.length = 20) (k : Nat) :
    (scratchImage pad body full).getD k 0#8 =
      if k < 20 then pad.getD k 0#8 else if k < 36 then body.getD (k - 20) 0#8
      else if k < 56 then full.getD (k - 36) 0#8 else 0#8 := by
  have hfront : (pad ++ (body ++ zeros (16 - body.length))).length = 36 := by
    rw [List.length_append, List.length_append, zeros_length]; omega
  rw [scratchImage, getD_append_zeros, List.append_assoc pad, getD_append_eq_ite, hfront, getD_append_eq_ite, hp,
    getD_append_zeros]
  by_cases h36 : k < 36
  · simp only [h36, if_true]
  · by_cases h56 : k < 56
    · simp only [h36, h56, if_false, if_true, show ¬ k < 20 by omega]
    · simp only [h36, h56, if_false, show ¬ k < 20 by omega]
      exact List.getD_eq_default _ _ (by omega)

/-! ### DECRYPT -/

/-- The payload DECRYPT takes, byte by byte (R149, R230). -/
theorem openedPayload_getD (s : State) (n : Nat) (hn : n ≤ 16) (k : Nat) :
    (s.openedPayload n).getD k 0#8 =
      if k < n then s.dataIn.byte (16 + k) ^^^ (hmacSha1 s.actEncKey (s.dataIn.bytes 0 16)).getD k 0#8 else 0#8 :=
  xorPad_bytes_getD _ _ _ _ (by rw [keystreamPad_length]; omega) k

theorem openedPayload_length (s : State) (n : Nat) (hn : n ≤ 16) : (s.openedPayload n).length = n := by
  rw [State.openedPayload, xorPad_length, bytes_length, keystreamPad_length]; omega

/-- The payload DECRYPT takes, as a list of its bytes. -/
theorem openedPayload_eq_map (s : State) (n : Nat) (hn : n ≤ 16) :
    s.openedPayload n = (List.range n).map fun k =>
      s.dataIn.byte (16 + k) ^^^ (hmacSha1 s.actEncKey (s.dataIn.bytes 0 16)).getD k 0#8 := by
  have hlen := openedPayload_length s n hn
  refine eq_of_getD_eq (by rw [hlen, List.length_map, List.length_range]) fun k hk => ?_
  rw [hlen] at hk
  rw [openedPayload_getD s n hn k, if_pos hk]
  simp [List.getD, hk]

/-- The HMAC DECRYPT computes, over the payload as a list of its bytes (R150). -/
theorem openedHmac_eq_map (s : State) (n : Nat) (hn : n ≤ 16) :
    s.openedHmac n = hmacSha1 s.actIntKey (((List.range n).map fun k =>
      s.dataIn.byte (16 + k) ^^^ (hmacSha1 s.actEncKey (s.dataIn.bytes 0 16)).getD k 0#8) ++ s.dataIn.bytes 0 16) := by
  rw [State.openedHmac, openedPayload_eq_map s n hn, integrityHmac]

/-- What DECRYPT leaves in SCRATCH, byte by byte (R48, R230). -/
theorem openedScratch_byte (s : State) (n : Nat) (hn : n ≤ 16) (k : Nat) :
    (s.openedScratch n).byte k =
      if k < 20 then (hmacSha1 s.actEncKey (s.dataIn.bytes 0 16)).getD k 0#8
      else if k < 36 then (s.openedPayload n).getD (k - 20) 0#8
      else if k < 56 then (s.openedHmac n).getD (k - 36) 0#8 else 0#8 := by
  rw [State.openedScratch, byte_ofBytes]
  exact scratchImage_getD _ _ _ (keystreamPad_length _ _) (by rw [openedPayload_length s n hn]; exact hn)
    (integrityHmac_length _ _ _) k

/-- Settles O24: the tag verifies, and the payload and SCRATCH are what DECRYPT computes. -/
theorem decryptDeliversThePayload : Obligations.DecryptDeliversThePayload := by
  intro s ml n hk hty hlen iv pad p full htag
  obtain ⟨-, hn⟩ := hty.lengths
  have hp : p = s.openedPayload n := (openedPayload_eq_map s n hn).symm
  have hfull : full = s.openedHmac n := (openedHmac_eq_map s n hn).symm
  rw [hfull] at htag
  rw [hfull, hp]
  refine ⟨Memory.ofBytes (s.openedPayload n ++ zeros (64 - n)), s.openedScratch n, ?_, fun k => ?_,
    openedScratch_byte s n hn⟩
  · rw [exec_decrypt, decrypt_eq s ml n hk hty hlen, if_pos ((tagVerifies_iff s n).2 htag), complete_ok]
  · rw [byte_ofBytes, getD_append_zeros, openedPayload_getD s n hn]

/-- DECRYPT of a block that is not KEYED (R231). -/
theorem decrypt_notConfigured (s : State) (hk : s.lifecycle ≠ .keyed) : decrypt s = complete .notConfigured s :=
  if_pos hk

/-- DECRYPT of a message of the wrong length (R231). -/
theorem decrypt_badMessageLength (s : State) (ml n : Nat) (hk : s.lifecycle = .keyed) (hty : TypeLengths s.actType ml n)
    (hlen : s.inLen.toNat ≠ ml) : decrypt s = complete .badMessageLength s := by
  rw [decrypt, if_neg (not_not.2 hk), formatRow_of_typeLengths _ _ _ hty]
  exact if_pos hlen

/-- Settles O25: each check fails only where the checks before it pass. -/
theorem decryptErrorsInOrder : Obligations.DecryptErrorsInOrder := by
  intro s
  refine ⟨fun hk => ?_, fun ml n hk hty hlen => ?_, fun ml n hk hty hlen => ?_⟩
  · rw [exec_decrypt, decrypt_notConfigured s hk, complete_error _ s (by decide)]
  · rw [exec_decrypt, decrypt_badMessageLength s ml n hk hty hlen, complete_error _ s (by decide)]
  · intro iv pad p full htag
    obtain ⟨-, hn⟩ := hty.lengths
    have hp : p = s.openedPayload n := (openedPayload_eq_map s n hn).symm
    have hfull : full = s.openedHmac n := (openedHmac_eq_map s n hn).symm
    rw [hfull] at htag
    rw [hfull, hp]
    have hdiffers : ¬ s.tagVerifies n = true := by
      obtain ⟨k, hk4, hne⟩ := htag
      exact fun h => hne ((tagVerifies_iff s n).1 h k hk4)
    refine ⟨s.openedScratch n, ?_, openedScratch_byte s n hn⟩
    rw [exec_decrypt, decrypt_eq s ml n hk hty hlen, if_neg hdiffers, complete_error _ _ (by decide)]

/-- DECRYPT's work on a token reads the keys and DATA_IN, not ACT_TYPE (R233). -/
theorem openToken_actType (f : Format) (s : State) (ty : BitVec 3) :
    openToken f { s with actType := ty } = { openToken f s with actType := ty } := by
  unfold openToken
  dsimp only [State.input]
  split <;> rfl

/-- DECRYPT reads ACT_TYPE for its row of the Format Table alone (R230, R233). -/
theorem decrypt_actType (s : State) (ty : BitVec 3) (hrow : formatRow ty = formatRow s.actType) :
    decrypt { s with actType := ty } = { decrypt s with actType := ty } := by
  have hinLen : State.inLen { s with actType := ty } = s.inLen := rfl
  simp only [decrypt, hrow, hinLen]
  split
  · rfl
  · split
    · rfl
    · split
      · rfl
      · exact openToken_actType _ s ty

/-- Settles O32: the two types have the same row. -/
theorem appIdentifierAndPriceDecryptAlike : Obligations.AppIdentifierAndPriceDecryptAlike := by
  intro s t hty hx
  cases hx
  have hrow : formatRow 2#3 = formatRow s.actType := by rw [hty]; rfl
  rw [exec_decrypt, decrypt_actType s 2#3 hrow]

/-! ### ENCRYPT -/

/-- The ciphertext ENCRYPT makes, byte by byte (R149, R240). -/
theorem sealedBody_getD (s : State) (n : Nat) (hn : n ≤ 16) (k : Nat) :
    (s.sealedBody n).getD k 0#8 =
      if k < n then s.dataIn.byte k ^^^ (hmacSha1 s.actEncKey (s.ivBuf.bytes 0 16)).getD k 0#8 else 0#8 := by
  have h := xorPad_bytes_getD s.dataIn 0 n (keystreamPad s.actEncKey s.initVector) (by rw [keystreamPad_length]; omega) k
  rwa [Nat.zero_add] at h

/-- The token, byte by byte (R114, R240). -/
theorem sealedToken_getD (s : State) (n : Nat) (hn : n ≤ 16) (k : Nat) :
    (s.sealedToken n).getD k 0#8 =
      if k < 16 then s.ivBuf.byte k else if k < 16 + n then (s.sealedBody n).getD (k - 16) 0#8
      else if k < 16 + n + 4 then (integrityHmac s.actIntKey (s.input n) s.initVector).getD (k - (16 + n)) 0#8
      else 0#8 := by
  have hfront : (s.initVector ++ s.sealedBody n).length = 16 + n := by
    rw [List.length_append, initVector_length, sealedBody_length s n (by omega)]
  rw [State.sealedToken, getD_append_eq_ite, hfront, getD_append_eq_ite, initVector_length]
  by_cases h16 : k < 16
  · rw [if_pos (by omega), if_pos h16, if_pos h16]
    exact bytes_zero_getD _ _ _ h16
  by_cases hbody : k < 16 + n
  · rw [if_pos hbody, if_neg h16, if_neg h16, if_pos hbody]
  rw [if_neg hbody, if_neg h16, if_neg hbody]
  by_cases htag : k < 16 + n + 4
  · have hin : k - (16 + n) < Config.tagLen - 0 := by rw [Config.tagLen]; omega
    rw [if_pos htag, integrityTag, slice_getD _ _ _ _ hin, Nat.zero_add]
  · rw [if_neg htag]
    exact List.getD_eq_default _ _ (by rw [integrityTag_length]; omega)

/-- Settles O26: the token and SCRATCH that ENCRYPT leaves, byte by byte. -/
theorem encryptDeliversTheToken : Obligations.EncryptDeliversTheToken := by
  intro s ml n hk hty hiv hlen iv x pad full
  obtain ⟨-, hn⟩ := hty.lengths
  have hbody := sealedBody_getD s n hn
  refine ⟨_, _, by rw [exec_encrypt, encrypt_eq s ml n hk hty hiv hlen, complete_ok], fun k => ?_, fun k => ?_⟩
  · rw [byte_ofBytes, getD_append_zeros, sealedToken_getD s n hn, hbody]
    by_cases h : k < 16 + n
    · by_cases h16 : k < 16
      · rw [if_pos h16, if_pos h16]
      · rw [if_neg h16, if_neg h16, if_pos h, if_pos h, if_pos (by omega)]
    · rw [if_neg h, if_neg h]
      rfl
  · rw [byte_ofBytes, scratchImage_getD _ _ _ (keystreamPad_length _ _)
      (by rw [sealedBody_length s n (by omega)]; exact hn) (integrityHmac_length _ _ _), hbody]
    by_cases h20 : k < 20
    · rw [if_pos h20, if_pos h20]
      rfl
    rw [if_neg h20, if_neg h20]
    by_cases h : k < 20 + n
    · rw [if_pos h, if_pos (by omega), if_pos (by omega)]
    · rw [if_neg h, if_neg (show ¬ k - 20 < n by omega)]
      rfl

/-- ENCRYPT of a block that is not KEYED (R241). -/
theorem encrypt_notConfigured (s : State) (hk : s.lifecycle ≠ .keyed) : encrypt s = complete .notConfigured s :=
  if_pos hk

/-- ENCRYPT with an IV of the wrong length, whatever the plaintext's length (R241). -/
theorem encrypt_badInitVectorLength (s : State) (ml n : Nat) (hk : s.lifecycle = .keyed)
    (hty : TypeLengths s.actType ml n) (hiv : s.ivLen.toNat ≠ 16) : encrypt s = complete .badInitVectorLength s := by
  rw [encrypt, if_neg (not_not.2 hk), formatRow_of_typeLengths _ _ _ hty]
  exact if_pos hiv

/-- ENCRYPT of a plaintext of the wrong length (R241). -/
theorem encrypt_badPlainLength (s : State) (ml n : Nat) (hk : s.lifecycle = .keyed) (hty : TypeLengths s.actType ml n)
    (hiv : s.ivLen.toNat = 16) (hlen : s.inLen.toNat ≠ n) : encrypt s = complete .badPlainLength s := by
  rw [encrypt, if_neg (not_not.2 hk), formatRow_of_typeLengths _ _ _ hty]
  exact (if_neg (not_not.2 hiv)).trans (if_pos hlen)

/-- Settles O27: each check fails only where the checks before it pass. -/
theorem encryptErrorsInOrder : Obligations.EncryptErrorsInOrder := by
  intro s
  simp only [exec_encrypt]
  refine ⟨fun hk => ?_, fun ml n hk hty hiv => ?_, fun ml n hk hty hiv hlen => ?_⟩
  · rw [encrypt_notConfigured s hk, complete_error _ s (by decide)]
  · rw [encrypt_badInitVectorLength s ml n hk hty hiv, complete_error _ s (by decide)]
  · rw [encrypt_badPlainLength s ml n hk hty hiv hlen, complete_error _ s (by decide)]

/-! ### No run stops, and no command hangs -/

/-- The engine's turn has a next state, since PEND holds a command while BUSY = 1 (R210, R211). -/
theorem BlockInv.exists_step_engine {s : State} (h : BlockInv s) (es : List Event) (hm : EngineMoves s es) :
    ∃ t, Machine.step s = .next t := by
  cases hb : s.busy with
  | false => exact ⟨_, step_engineMoves_idle s es hm hb⟩
  | true =>
    obtain ⟨i, hi⟩ := h.inFlight hb
    rw [step_engineMoves_busy s es i hm hb hi]
    exact exists_exec_eq_next i _

/-- The host's turn has a next state, from every state. -/
theorem exists_step_host (s : State) (a : Access) (es : List Event) (hm : HostMoves s a es) : ∃ t, step s = .next t := by
  cases hc : a.command? with
  | none => exact ⟨_, step_hostAccess s a es hm hc⟩
  | some i =>
    obtain ⟨-, off, rfl, ho⟩ := command?_eq_some a i hc
    obtain rfl : off = 0x004#12 := BitVec.eq_of_toNat_eq ho
    exact ⟨_, step_sresetWrite s es hm⟩

/-- A state with the invariants has a next state (R214, R264). -/
theorem BlockInv.exists_step {s : State} (h : BlockInv s) : ∃ t, Machine.step s = .next t := by
  cases he : s.events with
  | nil => exact h.exists_step_engine [] (.inl ⟨he, rfl⟩)
  | cons e es =>
    cases e with
    | bus a => exact exists_step_host s a es he
    | engine => exact h.exists_step_engine es (.inr he)
    | hardwareReset => exact ⟨_, step_hardwareReset s es he⟩

/-- Settles O36: a reachable state has the invariants, and these give a next state. -/
theorem reachableStatesNeverStop : Obligations.ReachableStatesNeverStop := fun _ hs => hs.blockInv.exists_step

/-- No register write touches the inputs to come. -/
theorem regWrite_events (tg : Target) (v : Word) (s : State) : (regWrite tg v s).events = s.events := by
  rcases regWrite_cases tg v s with
    ⟨h, -⟩ | ⟨h, -⟩ | ⟨h, -⟩ | ⟨h, -, -⟩ | ⟨h, -⟩ | ⟨h, -, -, -⟩ | ⟨h, -, -⟩ | ⟨b, k, h, -, -, -⟩ <;> rw [h]
  case inr.inr.inr.inr.inr.inl => rcases issue_cases v s with ⟨i, -, h⟩ | ⟨e, -, h⟩ <;> rw [h] <;> rfl
  case inr.inr.inr.inr.inr.inr.inr => exact setBuf_events s b _
  all_goals rfl

/-- No host access touches the inputs to come. -/
theorem hostAccess_events (a : Access) (s : State) : (hostAccess a s).events = s.events := by
  cases a with
  | read off size =>
    obtain ⟨r, h⟩ := hostAccess_read off size s
    rw [h]
  | write off size v =>
    rcases hostAccess_write off size v s with ⟨tg, -, h⟩ | ⟨-, h⟩ <;> rw [h]
    exact regWrite_events tg v _

theorem EngineMoves.tail_eq {s : State} {es : List Event} (h : EngineMoves s es) : s.events.tail = es := by
  rcases h with ⟨he, rfl⟩ | he <;> rw [he] <;> rfl

/-- A step uses up the first of the inputs to come. -/
theorem step_events {s t : State} (h : step s = .next t) : t.events = s.events.tail := by
  rcases step_cases s t h with ⟨es, hm, -, rfl⟩ | ⟨es, i, hm, -, -, hi, hx⟩ | ⟨a, es, hm, -, rfl⟩ |
    ⟨es, hm, rfl⟩ | ⟨es, he, rfl⟩
  · exact hm.tail_eq.symm
  · exact (commandEffect_of_exec i _ t hi hx).events_eq.trans hm.tail_eq.symm
  · rw [hostAccess_events, show s.events = .bus a :: es from hm, List.tail_cons]
  · rw [toReset_events, show s.events = .bus _ :: es from hm, List.tail_cons]
  · rw [toReset_events, he, List.tail_cons]

/-- The step with no input left leaves the block idle: the engine moves, and what is in flight completes (R211). -/
theorem busy_of_step_of_events_nil {s t : State} (h : step s = .next t) (he : s.events = []) : t.busy = false := by
  rcases step_cases s t h with ⟨es, -, hb, rfl⟩ | ⟨es, i, -, -, -, hi, hx⟩ | ⟨a, es, hm, -, -⟩ | ⟨es, -, rfl⟩ |
    ⟨es, -, rfl⟩
  · exact hb
  · obtain ⟨hdone, -, -⟩ := (commandEffect_of_exec i _ t hi hx).completes
    exact hdone
  · rw [HostMoves, he] at hm
    cases hm
  · rfl
  · rfl

/-- A run begins with its first step. -/
theorem run_succ_of_step {s t : State} (k : Nat) (h : step s = .next t) :
    Host.Core.run Sys2Proof.core (k + 1) s = Host.Core.run Sys2Proof.core k t := by
  have hcore : Host.Core.step Sys2Proof.core s = .next t := h
  simp only [Host.Core.run, hcore]

/-- The claim for a given list of inputs to come, by induction on it. -/
theorem BlockInv.run_to_rest {s : State} (h : BlockInv s) (es : List Event) (he : s.events = es) :
    ∃ t : State, Host.Core.run Sys2Proof.core (es.length + 1) s = .next t ∧ t.busy = false ∧ t.events = [] := by
  induction es generalizing s with
  | nil =>
    obtain ⟨t, ht⟩ := h.exists_step
    exact ⟨t, run_succ_of_step 0 ht, busy_of_step_of_events_nil ht he, (step_events ht).trans (by rw [he]; rfl)⟩
  | cons e es ih =>
    obtain ⟨t, ht⟩ := h.exists_step
    obtain ⟨u, hu, hrest⟩ := ih (everyStepKeepsTheInvariants s t h ht) ((step_events ht).trans (by rw [he]; rfl))
    exact ⟨u, (run_succ_of_step _ ht).trans hu, hrest⟩

/-- Settles O37: every step uses up an input, and the step after the last one is the engine's. -/
theorem theBlockComesToRest : Obligations.TheBlockComesToRest := fun s h => h.run_to_rest s.events rfl

end Sys2Proof.Machine
end

section
/-! PROOFS. The statements about the platform and about the time of a command (60_exceptions.md): the blocks share nothing, and
the time depends on public state only. -/

namespace Sys2Proof.Machine

/-! ### One block of a platform -/

/-- All that a step of block `k` can answer with a next platform: there is no such block and nothing moves, or the block's
own step answers and its result takes the block's place. -/
theorem Platform.stepAt_cases (k : Nat) (p q : Platform) (h : Platform.stepAt k p = .next q) :
    (p[k]? = none ∧ q = p) ∨ ∃ s t, p[k]? = some s ∧ step s = .next t ∧ q = p.set k t := by
  unfold Platform.stepAt at h
  split at h
  next hnone =>
    cases h
    exact .inl ⟨hnone, rfl⟩
  next s hs =>
    split at h
    next t ht =>
      cases h
      exact .inr ⟨s, t, hs, ht, rfl⟩
    next => cases h
    next => cases h

/-- Settles O50: the step replaces the entry of its own block, and no other. -/
theorem instancesShareNothing : Obligations.InstancesShareNothing := by
  intro k p q h
  rcases Platform.stepAt_cases k p q h with ⟨hnone, rfl⟩ | ⟨s, t, hs, ht, rfl⟩
  · refine ⟨rfl, fun _ _ => rfl, fun s hs => ?_⟩
    rw [hnone] at hs
    cases hs
  · obtain ⟨hk, -⟩ := List.getElem?_eq_some_iff.mp hs
    refine ⟨List.length_set, fun j hj => List.getElem?_set_ne hj.symm, fun s' hs' => ?_⟩
    rw [hs] at hs'
    cases hs'
    exact ⟨t, ht, List.getElem?_set_self hk⟩

/-! ### The time of a command -/

/-- The check that fails is read off ACT_TYPE, STATE and LEN alone (R274, R275): CONFIGURE reads the two key lengths, DECRYPT
the input length beside the type and STATE, ENCRYPT the IV length too. -/
theorem State.failedCheck_congr {s u : State} (i : Instr) (hty : s.actType = u.actType)
    (hst : s.lifecycle = u.lifecycle) (hlen : s.len = u.len) : s.failedCheck i = u.failedCheck i := by
  have hin : s.inLen = u.inLen := congrArg (BitVec.extractLsb' 0 8) hlen
  have hiv : s.ivLen = u.ivLen := congrArg (BitVec.extractLsb' 8 8) hlen
  have henc : s.encKeyLen = u.encKeyLen := congrArg (BitVec.extractLsb' 16 8) hlen
  have hint : s.intKeyLen = u.intKeyLen := congrArg (BitVec.extractLsb' 24 8) hlen
  cases i with
  | configure t => rw [State.failedCheck, State.failedCheck, henc, hint]
  | decrypt => rw [State.failedCheck, State.failedCheck, hst, hty, hin]
  | encrypt => rw [State.failedCheck, State.failedCheck, hst, hty, hiv, hin]
  | nop => rfl
  | release => rfl
  | sreset => rfl

/-- Settles O51: the arguments of LATENCY are the opcode, the type, STATE and the failed check, all of them public. -/
theorem latencyDependsOnPublicStateOnly : Obligations.LatencyDependsOnPublicStateOnly := by
  intro s u i hty hst hlen
  rw [State.latency, State.latency, hty, hst, State.failedCheck_congr i hty hst hlen]

end Sys2Proof.Machine
end

section
/-! PROOFS. The statements about reset and hazards (70_reset_and_hazards.md): SRESET against the hardware reset, a read behind a
write, staged keys, an acquire from any start, and what of an earlier output no later result shows. -/

namespace Sys2Proof.Machine

/-! ### SRESET and the hardware reset -/

/-- Settles O5: both are one step to the reset state, and only the bus's answer tells them apart. -/
theorem sresetWriteEqualsHardwareReset : Obligations.SresetWriteEqualsHardwareReset := fun s es hm =>
  ⟨_, step_sresetWrite s es hm, resetValues_toReset _, rfl, rfl,
    step_hardwareReset { s with events := .hardwareReset :: es } es rfl⟩

/-! ### A read right after a write -/

/-- A word read where it was stored is that word (R70). -/
@[simp] theorem wordAt_setWord (m : Memory) (k : Nat) (v : Word) : (m.setWord k v).wordAt k = v := by
  simp only [Memory.wordAt, byte_setWord_eq]
  simpa using beWord_be32 v

/-- LEN holds the word written while BUSY = 0 (R39, R185). -/
theorem regRead_regWrite_len (v : Word) (s : State) (hb : s.busy = false) : regRead .len (regWrite .len v s) = v := by
  rw [regWrite, if_neg (Bool.eq_false_iff.1 hb), regRead_len]

/-- INT_ENABLE holds bits [2:0] of the word written (R38, R185). -/
theorem regRead_regWrite_intEnable (v : Word) (s : State) :
    regRead .intEnable (regWrite .intEnable v s) = 0#29 ++ v.extractLsb' 0 3 :=
  setWidth_eq_zeros_append _

/-- A word of a window that can be read and written holds the word written while BUSY = 0 (R70, R185). -/
theorem regRead_regWrite_buf (b : Buffer) (k : Nat) (v : Word) (s : State) (hr : b.writeOnly = false)
    (hw : b.readOnly = false) (hb : s.busy = false) : regRead (.buf b k) (regWrite (.buf b k) v s) = v := by
  rw [regWrite, if_neg (Bool.eq_false_iff.1 hw), if_neg (Bool.eq_false_iff.1 hb), regRead,
    if_neg (Bool.eq_false_iff.1 hr), setBuf_buf, if_pos rfl, wordAt_setWord]

/-- A write and then a read of one register other than CMD are two steps, and the second answers what the write left there. -/
theorem step_write_step_read (s : State) (off : Offset) (v x : Word) (es : List Event) (tg : Target)
    (he : s.events = .bus (.write off 4 v) :: .bus (.read off 4) :: es) (ht : accessTarget? off 4 = some tg)
    (hcmd : off.toNat ≠ 0x004)
    (hx : regRead tg (regWrite tg v { s with events := .bus (.read off 4) :: es, reply := .written }) = x) :
    ∃ t u, step s = .next t ∧ step t = .next u ∧ u.reply = .data x ∧ u.events = es := by
  refine ⟨_, _, step_write s off v _ tg he ht (.inl hcmd), step_read _ off 4 es tg (regWrite_events tg v _) ht, ?_, rfl⟩
  exact congrArg Reply.data ((regRead_withInputs tg _ es _).trans hx)

/-- Settles O17: the target of the offset tells which register's write is read back. -/
theorem readReturnsTheWordWritten : Obligations.ReadReturnsTheWordWritten := by
  intro s off v es he
  refine ⟨fun hb h4 hr => ?_, fun ho => ?_⟩
  · rcases hr with ho | ⟨lo, hi⟩ | ⟨lo, hi⟩
    · obtain rfl : off = 0x014#12 := BitVec.eq_of_toNat_eq ho
      exact step_write_step_read s _ v v es .len he (by decide) (by decide) (regRead_regWrite_len v _ hb)
    · exact step_write_step_read s off v v es _ he (accessTarget?_of_window off .iv h4 lo hi) (by omega)
        (regRead_regWrite_buf .iv _ v _ rfl rfl hb)
    · exact step_write_step_read s off v v es _ he (accessTarget?_of_window off .dataIn h4 lo hi) (by omega)
        (regRead_regWrite_buf .dataIn _ v _ rfl rfl hb)
  · obtain rfl : off = 0x010#12 := BitVec.eq_of_toNat_eq ho
    exact step_write_step_read s _ v _ es .intEnable he (by decide) (by decide) (regRead_regWrite_intEnable v _)

/-! ### Staged keys -/

/-- Two states that differ in their staging windows at most differ in their secrets at most, and agree on the other secrets. -/
theorem sameButStaging_iff (s u : State) :
    SameButStaging s u ↔
      SameButSecrets s u ∧ s.actEncKey = u.actEncKey ∧ s.actIntKey = u.actIntKey ∧ s.scratch = u.scratch := by
  simp only [SameButStaging, SameButSecrets, State.hideStaging, State.hideSecrets, State.mk.injEq]
  tauto

/-- A register write other than SRESET's leaves the active keys and SCRATCH alone (R46, R48). -/
theorem regWrite_keeps_keys (tg : Target) (v : Word) (s : State) (hv : tg = .cmd → v ≠ sresetWord) :
    (regWrite tg v s).actEncKey = s.actEncKey ∧ (regWrite tg v s).actIntKey = s.actIntKey ∧
      (regWrite tg v s).scratch = s.scratch := by
  rcases regWrite_cases tg v s with
    ⟨h, -⟩ | ⟨h, -⟩ | ⟨h, -⟩ | ⟨-, hc, hs⟩ | ⟨h, -⟩ | ⟨h, -, -, -⟩ | ⟨h, -, -⟩ | ⟨b, k, h, -, -, -⟩
  case inr.inr.inr.inl => exact absurd hs (hv hc)
  all_goals rw [h]
  case inr.inr.inr.inr.inr.inl =>
    rcases issue_cases v s with ⟨i, -, h⟩ | ⟨e, -, h⟩ <;> rw [h] <;> exact ⟨rfl, rfl, rfl⟩
  case inr.inr.inr.inr.inr.inr.inr => exact ⟨setBuf_actEncKey s b _, setBuf_actIntKey s b _, setBuf_scratch s b _⟩
  all_goals exact ⟨rfl, rfl, rfl⟩

/-- A host access other than the SRESET write leaves the active keys and SCRATCH alone (R46, R48). -/
theorem hostAccess_keeps_keys (a : Access) (s : State) (hc : a.command? = none) :
    (hostAccess a s).actEncKey = s.actEncKey ∧ (hostAccess a s).actIntKey = s.actIntKey ∧
      (hostAccess a s).scratch = s.scratch := by
  cases a with
  | read off size =>
    obtain ⟨r, h⟩ := hostAccess_read off size s
    rw [h]
    exact ⟨rfl, rfl, rfl⟩
  | write off size v =>
    rcases hostAccess_write off size v s with ⟨tg, ht, h⟩ | ⟨-, h⟩ <;> rw [h]
    · refine regWrite_keeps_keys tg v _ ?_
      rintro rfl rfl
      simp only [Access.command?, ht] at hc
      exact absurd hc (by decide)
    · exact ⟨rfl, rfl, rfl⟩

/-- What a host access other than the SRESET write leaves outside the staging windows does not depend on them. -/
theorem hostAccess_hideStaging (a : Access) (s : State) (hc : a.command? = none) :
    SameButStaging (hostAccess a s.hideStaging) (hostAccess a s) := by
  obtain ⟨henc, hint, hscratch⟩ := hostAccess_keeps_keys a s hc
  obtain ⟨henc', hint', hscratch'⟩ := hostAccess_keeps_keys a s.hideStaging hc
  refine (sameButStaging_iff _ _).2 ⟨?_, henc'.trans henc.symm, hint'.trans hint.symm, hscratch'.trans hscratch.symm⟩
  exact (hostAccess_hideSecrets a s.hideStaging).symm.trans (hostAccess_hideSecrets a s)

@[simp] theorem hideStaging_lifecycle (s : State) : s.hideStaging.lifecycle = s.lifecycle := rfl
@[simp] theorem hideStaging_actType (s : State) : s.hideStaging.actType = s.actType := rfl
@[simp] theorem hideStaging_inLen (s : State) : s.hideStaging.inLen = s.inLen := rfl
@[simp] theorem hideStaging_ivLen (s : State) : s.hideStaging.ivLen = s.ivLen := rfl

/-- DECRYPT's work on a token neither reads nor writes the staging windows (R46, R230). -/
theorem openToken_hideStaging (f : Format) (s : State) : openToken f s.hideStaging = (openToken f s).hideStaging := by
  unfold openToken
  dsimp only [State.input, State.hideStaging]
  split <;> rfl

theorem decrypt_hideStaging (s : State) : decrypt s.hideStaging = (decrypt s).hideStaging := by
  simp only [decrypt, openToken_hideStaging, hideStaging_lifecycle, hideStaging_actType, hideStaging_inLen]
  split
  · rfl
  · split
    · rfl
    · split <;> rfl

/-- ENCRYPT neither reads nor writes the staging windows (R46, R240). -/
theorem encrypt_hideStaging (s : State) : encrypt s.hideStaging = (encrypt s).hideStaging := by
  have hseal : ∀ f, sealToken f s.hideStaging = (sealToken f s).hideStaging := fun _ => rfl
  simp only [encrypt, hseal, hideStaging_lifecycle, hideStaging_actType, hideStaging_inLen, hideStaging_ivLen]
  split
  · rfl
  · split
    · rfl
    · split
      · rfl
      · split <;> rfl

/-- A command other than CONFIGURE leaves outside the staging windows nothing that depends on them (R312). -/
theorem exec_hideStaging (i : Instr) (s t : State) (hi : ∀ ty, i ≠ .configure ty) (h : exec i s = .next t) :
    ∃ t₀, exec i s.hideStaging = .next t₀ ∧ SameButStaging t₀ t := by
  cases i with
  | configure ty => exact absurd rfl (hi ty)
  | decrypt => cases h; exact ⟨_, rfl, by rw [decrypt_hideStaging]; rfl⟩
  | encrypt => cases h; exact ⟨_, rfl, by rw [encrypt_hideStaging]; rfl⟩
  | nop | release | sreset => cases h; exact ⟨_, rfl, rfl⟩

/-- The next step completes no CONFIGURE. -/
def State.CompletesNoConfigure (s : State) : Prop :=
  (∃ es, EngineMoves s es) → s.busy = true → ∀ ty, s.pendingCommand ≠ some (.configure ty)

/-- Which command completes next does not depend on the staging windows. -/
theorem completesNoConfigure_hideStaging (s : State) : s.hideStaging.CompletesNoConfigure ↔ s.CompletesNoConfigure :=
  Iff.rfl

/-- A step that completes no CONFIGURE leaves outside the staging windows nothing that depends on them (R312): the state with
its staging windows blanked takes the same step. -/
theorem step_hideStaging (s t : State) (hc : s.CompletesNoConfigure) (h : step s = .next t) :
    ∃ t₀, step s.hideStaging = .next t₀ ∧ SameButStaging t₀ t := by
  rcases step_cases s t h with ⟨es, hm, hb, rfl⟩ | ⟨es, i, hm, hb, hp, -, hx⟩ | ⟨a, es, hm, ha, rfl⟩ |
    ⟨es, hm, rfl⟩ | ⟨es, hm, rfl⟩
  · exact ⟨_, step_engineMoves_idle s.hideStaging es hm hb, rfl⟩
  · rw [step_engineMoves_busy s.hideStaging es i hm hb hp]
    exact exec_hideStaging i _ t (fun ty hi => hc ⟨es, hm⟩ hb ty (hi ▸ hp)) hx
  · exact ⟨_, step_hostAccess s.hideStaging a es hm ha, hostAccess_hideStaging a { s with events := es } ha⟩
  · exact ⟨_, step_sresetWrite s.hideStaging es hm, rfl⟩
  · exact ⟨_, step_hardwareReset s.hideStaging es hm, rfl⟩

/-- Settles O41: two states alike but for their staging windows are one state with these blanked, and that state tells what
both become. -/
theorem stagedKeysWaitForConfigure : Obligations.StagedKeysWaitForConfigure := by
  intro s u h hc t t' hs hu
  have hsame : s.hideStaging = u.hideStaging := h
  have hcu : u.CompletesNoConfigure :=
    (completesNoConfigure_hideStaging u).1 (hsame ▸ (completesNoConfigure_hideStaging s).2 hc)
  obtain ⟨t₀, hs₀, ht⟩ := step_hideStaging s t hc hs
  obtain ⟨u₀, hu₀, ht'⟩ := step_hideStaging u t' hcu hu
  rw [hsame, hu₀] at hs₀
  cases hs₀
  exact Eq.trans (Eq.symm ht) ht'

/-! ### A byte string loaded into a window -/

/-- A string stored in two parts, one behind the other. -/
theorem setBytes_append (m : Memory) (k : Nat) (a b : List Byte) :
    m.setBytes k (a ++ b) = (m.setBytes k a).setBytes (k + a.length) b := by
  induction a generalizing m k with
  | nil => rfl
  | cons x a ih =>
    rw [List.cons_append, Memory.setBytes, ih, Memory.setBytes, List.length_cons, Nat.add_assoc, Nat.add_comm 1]

/-- The four bytes of a word made of bytes side by side. -/
theorem extractLsb'_append_bytes (b0 b1 b2 b3 : Byte) :
    (b0 ++ b1 ++ b2 ++ b3).extractLsb' 24 8 = b0 ∧ (b0 ++ b1 ++ b2 ++ b3).extractLsb' 16 8 = b1 ∧
      (b0 ++ b1 ++ b2 ++ b3).extractLsb' 8 8 = b2 ∧ (b0 ++ b1 ++ b2 ++ b3).extractLsb' 0 8 = b3 := by
  refine ⟨?_, ?_, ?_, ?_⟩
  all_goals
    apply BitVec.eq_of_getLsbD_eq
    intro i hi
    simp only [BitVec.getLsbD_append, BitVec.getLsbD_extractLsb']
    grind

/-- The bytes of a big-endian word are the bytes it was made of (R10, R70). -/
theorem be32_beWord (b0 b1 b2 b3 : Byte) : be32 (beWord b0 b1 b2 b3) = [b0, b1, b2, b3] := by
  obtain ⟨h0, h1, h2, h3⟩ := extractLsb'_append_bytes b0 b1 b2 b3
  rw [be32, beWord, h0, h1, h2, h3]

/-- LOAD's words hold the string, and zeros up to a whole word (R117). -/
theorem exists_paddedWords_eq : ∀ bs : List Byte, ∃ n, (paddedWords bs).flatMap be32 = bs ++ zeros n
  | [] => ⟨0, rfl⟩
  | [a] => ⟨3, by rw [paddedWords, List.flatMap_singleton, be32_beWord]; rfl⟩
  | [a, b] => ⟨2, by rw [paddedWords, List.flatMap_singleton, be32_beWord]; rfl⟩
  | [a, b, c] => ⟨1, by rw [paddedWords, List.flatMap_singleton, be32_beWord]; rfl⟩
  | a :: b :: c :: d :: r => by
    obtain ⟨n, hn⟩ := exists_paddedWords_eq r
    exact ⟨n, by rw [paddedWords, List.flatMap_cons, be32_beWord, hn]; rfl⟩

/-- LOAD writes one word for every four bytes begun (R117). -/
theorem paddedWords_length : ∀ bs : List Byte, (paddedWords bs).length = (bs.length + 3) / 4
  | [] => rfl
  | [_] | [_, _] | [_, _, _] => by simp only [paddedWords, List.length_cons, List.length_nil]
  | a :: b :: c :: d :: r => by
    simp only [paddedWords, List.length_cons, paddedWords_length r]
    omega

/-- The array after a LOAD (R117): the bytes of the words written, over what it held. -/
def Memory.load (m : Memory) (bs : List Byte) : Memory := m.setBytes 0 ((paddedWords bs).flatMap be32)

/-- A loaded string stands in its array byte by byte. -/
theorem byte_load (m : Memory) (bs : List Byte) (k : Nat) (hk : k < bs.length) : (m.load bs).byte k = bs.getD k 0#8 := by
  obtain ⟨n, hn⟩ := exists_paddedWords_eq bs
  have hin : 0 ≤ k ∧ k < 0 + (bs ++ zeros n).length := by rw [List.length_append]; omega
  rw [Memory.load, hn, byte_setBytes, if_pos hin, getD_append_zeros, Nat.sub_zero]

/-- A loaded string is read back from its array. -/
theorem bytes_load (m : Memory) (bs : List Byte) : (m.load bs).bytes 0 bs.length = bs := by
  refine eq_of_getD_eq (bytes_length _ _ _) fun k hk => ?_
  rw [bytes_length] at hk
  rw [bytes_zero_getD _ _ _ hk, byte_load m bs k hk]

/-! ### A host that writes -/

theorem setBuf_self (s : State) (b : Buffer) : s.setBuf b (s.buf b) = s := by cases b <;> rfl

/-- Of two writes to a window's array, and of two answers of the bus, the later one stays. -/
theorem setBuf_setBuf (s : State) (b : Buffer) (m m' : Memory) (a a' : Reply) :
    State.setBuf { State.setBuf { s with reply := a } b m with reply := a' } b m' =
      State.setBuf { s with reply := a' } b m' := by
  cases b <;> rfl

/-- The host writes a word of a writable window of an idle block (R183). -/
theorem Session.turn_writeWord (s : State) (b : Buffer) (w : Nat) (v : Word) (c : List Stmt) (r : List Word)
    (hw : 4 * w + 4 ≤ b.size) (hd : b.readOnly = false) (hb : s.busy = false) (he : s.events = []) :
    Session.turn ⟨s, ⟨.wr (b.wordOffset w) v :: c, r⟩⟩ .host =
      .next ⟨State.setBuf { s with reply := .written } b ((s.buf b).setWord (4 * w) v), ⟨c, r⟩⟩ := by
  have hstep := step_write_word { s with events := [.bus (.write (b.wordOffset w) 4 v)] } b w v [] hw hd hb rfl
  have hbuf : State.buf { s with events := [.bus (.write (b.wordOffset w) 4 v)] } b = s.buf b := by cases b <;> rfl
  rw [hbuf, ← he] at hstep
  exact Session.turn_host _ _ _ rfl (he ▸ hstep)

/-- The host writes LEN of an idle block (R39). -/
theorem Session.turn_writeLen (s : State) (v : Word) (c : List Stmt) (r : List Word) (hb : s.busy = false)
    (he : s.events = []) :
    Session.turn ⟨s, ⟨.wr 0x014#12 v :: c, r⟩⟩ .host = .next ⟨{ s with len := v, reply := .written }, ⟨c, r⟩⟩ := by
  have hstep := step_write { s with events := [.bus (.write 0x014#12 4 v)] } 0x014#12 v [] .len rfl (by decide)
    (.inl (by decide))
  rw [regWrite, if_neg (Bool.eq_false_iff.1 hb), ← he] at hstep
  exact Session.turn_host _ _ _ rfl (he ▸ hstep)

theorem loadWords_length (b : Buffer) (w : Nat) (ws : List Word) : (loadWords b w ws).length = ws.length := by
  induction ws generalizing w with
  | nil => rfl
  | cons v ws ih => rw [loadWords, List.length_cons, ih, List.length_cons]

/-- The host writes words of a window of an idle block, one after the other (R117). -/
theorem Session.run_loadWords (s : State) (b : Buffer) (w : Nat) (ws : List Word) (c : List Stmt) (r : List Word)
    (hw : 4 * (w + ws.length) ≤ b.size) (hd : b.readOnly = false) (hb : s.busy = false) (he : s.events = []) :
    ∃ a, Session.run (List.replicate ws.length .host) ⟨s, ⟨loadWords b w ws ++ c, r⟩⟩ =
      .next ⟨State.setBuf { s with reply := a } b ((s.buf b).setBytes (4 * w) (ws.flatMap be32)), ⟨c, r⟩⟩ := by
  induction ws generalizing s w with
  | nil => exact ⟨s.reply, congrArg (fun x => Host.Outcome.next (Session.mk x ⟨c, r⟩)) (setBuf_self s b).symm⟩
  | cons v ws ih =>
    rw [List.length_cons] at hw
    have hturn := Session.turn_writeWord s b w v (loadWords b (w + 1) ws ++ c) r (by omega) hd hb he
    obtain ⟨a, ha⟩ := ih (State.setBuf { s with reply := .written } b ((s.buf b).setWord (4 * w) v)) (w + 1) (by omega)
      ((setBuf_busy _ b _).trans hb) ((setBuf_events _ b _).trans he)
    refine ⟨a, (Session.run_cons _ _ _ _ hturn).trans ?_⟩
    rw [ha, setBuf_setBuf, setBuf_buf, if_pos rfl, List.flatMap_cons, setBytes_append, be32_length]
    rfl

/-- A LOAD of a string that fits its window, on an idle block (R117). -/
theorem Session.run_load (s : State) (b : Buffer) (bs : List Byte) (c : List Stmt) (r : List Word)
    (hfit : (bs.length + 3) / 4 * 4 ≤ b.size) (hd : b.readOnly = false) (hb : s.busy = false) (he : s.events = []) :
    ∃ a, Session.run (List.replicate (load b bs).length .host) ⟨s, ⟨load b bs ++ c, r⟩⟩ =
      .next ⟨State.setBuf { s with reply := a } b ((s.buf b).load bs), ⟨c, r⟩⟩ := by
  rw [load, loadWords_length]
  exact Session.run_loadWords s b 0 (paddedWords bs) c r (by rw [paddedWords_length]; omega) hd hb he

/-! ### An acquire -/

/-- The length of a key that a host writes fits its field (R39, R137). -/
theorem lenField_hostKey (k : List Byte) : lenField (hostKey k) = BitVec.ofNat 8 (hostKey k).length :=
  if_pos ((hostKey_length k).trans (by decide))

/-- The block once a host has staged its keys and written their lengths (R305 step 4). -/
def State.staged (s : State) (ek ik : List Byte) : State :=
  { s with
    encKeyStage := s.encKeyStage.load (hostKey ek)
    intKeyStage := s.intKeyStage.load (hostKey ik)
    len := lenField (hostKey ik) ++ lenField (hostKey ek) ++ 0#8 ++ 0#8 }

/-- The block once CONFIGURE has latched the staged keys, the answer of the bus left out (R221). -/
def State.configured (s : State) (t : BitVec 3) (ek ik : List Byte) : State :=
  { s.staged ek ik with
    lifecycle := .keyed
    actType := t
    actEncKey := hostKey ek
    actIntKey := hostKey ik
    errCode := .ok
    lastOp := 0x1#4
    pendOp := 0x1#4
    pendType := t
    intStatus := s.intStatus ||| 0b001#3 }

/-- The block at the end of an acquire, its STATUS read (R119, R305 step 4). -/
def State.acquired (s : State) (t : BitVec 3) (ek ik : List Byte) : State :=
  { s.configured t ek ik with reply := .data (s.configured t ek ik).statusWord }

/-- LEN declares the lengths of the staged keys (R39). -/
theorem keyLens_staged (s : State) (ek ik : List Byte) :
    (s.staged ek ik).encKeyLen.toNat = (hostKey ek).length ∧ (s.staged ek ik).intKeyLen.toNat = (hostKey ik).length := by
  have hfits : ∀ k, (hostKey k).length ≤ 255 := fun k => (hostKey_length k).trans (by decide)
  obtain ⟨hint, henc, -, -⟩ := extractLsb'_append_bytes (lenField (hostKey ik)) (lenField (hostKey ek)) 0#8 0#8
  constructor
  · rw [State.encKeyLen, State.staged, henc, lenField_toNat _ (hfits ek)]
  · rw [State.intKeyLen, State.staged, hint, lenField_toNat _ (hfits ik)]

/-- The staged strings of the declared lengths are the keys the host wrote (R46). -/
theorem stagedKeys_staged (s : State) (ek ik : List Byte) :
    (s.staged ek ik).stagedEncKey = hostKey ek ∧ (s.staged ek ik).stagedIntKey = hostKey ik := by
  obtain ⟨henc, hint⟩ := keyLens_staged s ek ik
  constructor
  · rw [State.stagedEncKey, henc]
    exact bytes_load _ _
  · rw [State.stagedIntKey, hint]
    exact bytes_load _ _

/-- CONFIGURE of a type with a row, issued on the staged keys, succeeds (R221). -/
theorem configure_staged (s : State) (t : BitVec 3) (ek ik : List Byte) (a : Reply) (ht : t.toNat < 4)
    (hb : s.busy = false) :
    configure t (latch (encode (.configure t)) { s.staged ek ik with reply := a }) =
      { s.configured t ek ik with reply := a } := by
  let issued := latch (encode (.configure t)) { s.staged ek ik with reply := a }
  obtain ⟨henc, hint⟩ : issued.encKeyLen.toNat = _ ∧ issued.intKeyLen.toNat = _ := keyLens_staged s ek ik
  obtain ⟨hkeyEnc, hkeyInt⟩ : issued.stagedEncKey = _ ∧ issued.stagedIntKey = _ := stagedKeys_staged s ek ik
  have hek := hostKey_length ek
  have hik := hostKey_length ik
  rcases configure_cases t issued with ⟨h4, -⟩ | ⟨-, hl, -⟩ | ⟨-, -, -, h⟩
  · omega
  · omega
  · rw [h, hkeyEnc, hkeyInt, complete_ok, ← hb]
    simp only [issued, latch_encode]
    rfl

/-- The host stages both keys and declares their lengths (R305 step 4). -/
theorem Session.run_stageKeys (s : State) (ek ik : List Byte) (c : List Stmt) (r : List Word) (hb : s.busy = false)
    (he : s.events = []) :
    Session.run (List.replicate ((load .encKey (hostKey ek) ++ load .intKey (hostKey ik)).length + 1) .host)
        ⟨s, ⟨loadKey .encKey ek ++ loadKey .intKey ik ++
          [setLen 0#8 0#8 (lenField (hostKey ek)) (lenField (hostKey ik))] ++ c, r⟩⟩ =
      .next ⟨{ s.staged ek ik with reply := .written }, ⟨c, r⟩⟩ := by
  have hfit : ∀ k, ((hostKey k).length + 3) / 4 * 4 ≤ 64 := fun k => by have := hostKey_length k; omega
  let declare := setLen 0#8 0#8 (lenField (hostKey ek)) (lenField (hostKey ik))
  rw [List.length_append, Nat.add_assoc, List.replicate_add, List.replicate_add, List.append_assoc, List.append_assoc]
  obtain ⟨a₁, henc⟩ := Session.run_load s .encKey (hostKey ek) (loadKey .intKey ik ++ ([declare] ++ c)) r (hfit ek) rfl
    hb he
  obtain ⟨a₂, hint⟩ := Session.run_load { s with encKeyStage := s.encKeyStage.load (hostKey ek), reply := a₁ } .intKey
    (hostKey ik) ([declare] ++ c) r (hfit ik) rfl hb he
  exact (Session.run_append _ _ _ _ henc).trans <| (Session.run_append _ _ _ _ hint).trans <|
    Session.run_cons _ _ _ _ (Session.turn_writeLen _ _ c r hb he)

/-- An acquire on an idle block, however often its WAIT reads. -/
theorem Session.run_acquire (s : State) (t : BitVec 3) (ek ik : List Byte) (n : Nat) (ht : t.toNat < 4)
    (hb : s.busy = false) (he : s.events = []) :
    Session.run (List.replicate ((load .encKey (hostKey ek) ++ load .intKey (hostKey ik)).length + 2 + n) .host ++
        [.engine, .host, .host]) (Session.start s (acquireProgram t ek ik)) =
      .next ⟨s.acquired t ek ik, ⟨[], [(s.acquired t ek ik).statusWord]⟩⟩ := by
  have hsplit : ∀ l, List.replicate (l + 2 + n) Turn.host ++ [.engine, .host, .host] =
      List.replicate (l + 1) .host ++ ([.host] ++ List.replicate n .host ++ [.engine, .host, .host]) := fun l => by
    rw [show l + 2 + n = l + 1 + (1 + n) by omega, List.replicate_add (l + 1), List.replicate_add 1, List.append_assoc]
    rfl
  have hexec : exec (.configure t) (latch (encode (.configure t)) { s.staged ek ik with reply := .written }) =
      .next { s.configured t ek ik with reply := .written } := by
    rw [exec_configure, configure_staged s t ek ik _ ht hb]
  have hrun := Session.run_runCommand { s.staged ek ik with reply := .written } _ (.configure t) n [] [] hb he (by simp)
    hexec
  rw [hsplit]
  exact (Session.run_append _ _ _ _ (Session.run_stageKeys s ek ik _ [] hb he)).trans hrun

/-- HMAC under the key a host writes is HMAC under the key given (R137). -/
theorem hmacSha1_hostKey (k m : List Byte) : hmacSha1 (hostKey k) m = hmacSha1 k m := by
  unfold hostKey
  split
  next => rfl
  next hk => exact (longKeyActsAsItsDigest k m (Nat.lt_of_not_le hk)).symm

/-- Settles O54: the acquired block is the start with the keys staged, declared and latched; what the statement calls
written for a key is `hostKey`. -/
theorem acquireFromEveryState : Obligations.AcquireFromEveryState := by
  unfold Obligations.AcquireFromEveryState
  intro Written
  have hWritten : Written = hostKey := rfl
  clear_value Written
  subst hWritten
  refine ⟨fun s t ek ik n hb he ht => ?_, hmacSha1_hostKey⟩
  refine ⟨s.acquired t ek ik, s.encKeyStage.load (hostKey ek), s.intKeyStage.load (hostKey ik),
    Session.run_acquire s t ek ik n ht hb he, ?_, byte_load _ _, byte_load _ _⟩
  rw [← lenField_hostKey, ← lenField_hostKey]
  rfl

/-- The turns of an acquire, counted by its statements or by its LOADs. -/
theorem acquireProgram_length_sub_two (t : BitVec 3) (ek ik : List Byte) :
    (acquireProgram t ek ik).length - 2 = (load .encKey (hostKey ek) ++ load .intKey (hostKey ik)).length + 2 := by
  simp only [acquireProgram, loadKey, runCommand, List.length_append, List.length_cons, List.length_nil]
  omega

/-- Settles O56: both ends are acquired blocks, which differ only in what they keep of their starts. -/
theorem acquireForgetsTheCaseItStartsFrom : Obligations.AcquireForgetsTheCaseItStartsFrom := by
  intro s v t ek ik n ht hsb hse hvb hve schedule
  have hs := Session.run_acquire s t ek ik n ht hsb hse
  have hv := Session.run_acquire v t ek ik n ht hvb hve
  rw [← acquireProgram_length_sub_two t] at hs hv
  refine ⟨⟨_, _, (v.acquired t ek ik).encKeyStage, (v.acquired t ek ik).intKeyStage, hs, hv, ?_, fun k hk => ?_,
    fun k hk => ?_⟩, fun henc hint hiv hin hout holen hscr => ?_⟩
  · simp only [State.acquired, State.configured, State.staged, hsb, hse, hvb, hve]
    rfl
  · exact (byte_load v.encKeyStage _ k hk).trans (byte_load s.encKeyStage _ k hk).symm
  · exact (byte_load v.intKeyStage _ k hk).trans (byte_load s.intKeyStage _ k hk).symm
  · have hends : v.acquired t ek ik =
        { s.acquired t ek ik with intStatus := v.intStatus ||| 0b001#3, intEnable := v.intEnable } := by
      simp only [State.acquired, State.configured, State.staged, hsb, hse, hvb, hve, henc, hint, hiv, hin, hout, holen,
        hscr]
      rfl
    have hstatus : (v.acquired t ek ik).statusWord = (s.acquired t ek ik).statusWord := by rw [hends]; rfl
    refine ⟨_, _, hs, ?_⟩
    rw [← hends, ← hstatus]
    exact hv

/-! ### Earlier output and later results -/

/-- Two ends of a DECRYPT or an ENCRYPT with the same code and, where it is OK, the same output. -/
def SameResult (t t' : State) : Prop :=
  t.errCode = t'.errCode ∧
    (t.errCode = .ok → t.dataOut = t'.dataOut ∧ t.outLen = t'.outLen ∧ t.scratch = t'.scratch)

/-- A completion with nothing written before it has a result that depends on an error code alone. -/
theorem SameResult.of_error {e : ResultCode} (s v : State) (he : e ≠ .ok) : SameResult (complete e s) (complete e v) :=
  ⟨rfl, fun hok => absurd hok he⟩

/-- The input string depends on its own bytes alone (R115). -/
theorem input_congr {s v : State} {n : Nat} (h : ∀ k < n, s.dataIn.byte k = v.dataIn.byte k) : s.input n = v.input n :=
  bytes_congr _ _ _ _ fun k hk => by rw [Nat.zero_add]; exact h k hk

/-- What DECRYPT makes of a token depends on the keys and the token alone (R230). -/
theorem openToken_sameResult (f : Format) {s v : State} (he : s.actEncKey = v.actEncKey) (hi : s.actIntKey = v.actIntKey)
    (hin : s.input f.messageLen = v.input f.messageLen) : SameResult (openToken f s) (openToken f v) := by
  unfold openToken
  simp only [he, hi, hin]
  split
  · exact ⟨rfl, fun _ => ⟨rfl, rfl, rfl⟩⟩
  · exact .of_error _ _ (by decide)

/-- What ENCRYPT makes of a plaintext depends on the keys, the IV and the plaintext alone (R240). -/
theorem sealToken_sameResult (f : Format) {s v : State} (he : s.actEncKey = v.actEncKey) (hi : s.actIntKey = v.actIntKey)
    (hiv : s.initVector = v.initVector) (hin : s.input f.payloadLen = v.input f.payloadLen) :
    SameResult (sealToken f s) (sealToken f v) := by
  unfold sealToken
  simp only [he, hi, hiv, hin]
  exact ⟨rfl, fun _ => ⟨rfl, rfl, rfl⟩⟩

/-- DECRYPT's result depends on STATE, the type, the keys, LEN and the declared input (R230, R231). -/
theorem decrypt_sameResult {s v : State} (hk : s.lifecycle = v.lifecycle) (hty : s.actType = v.actType)
    (he : s.actEncKey = v.actEncKey) (hi : s.actIntKey = v.actIntKey) (hlen : s.len = v.len)
    (hin : ∀ k < s.inLen.toNat, s.dataIn.byte k = v.dataIn.byte k) : SameResult (decrypt s) (decrypt v) := by
  have hinLen : s.inLen = v.inLen := congrArg (BitVec.extractLsb' 0 8) hlen
  simp only [decrypt, ← hk, ← hty, ← hinLen]
  split
  · exact .of_error _ _ (by decide)
  · split
    next => exact .of_error _ _ (by decide)
    next f hf =>
      split
      next => exact .of_error _ _ (by decide)
      next hl => exact openToken_sameResult f he hi (input_congr (not_not.1 hl ▸ hin))

/-- ENCRYPT's result depends on STATE, the type, the keys, LEN, the IV and the declared input (R240, R241). -/
theorem encrypt_sameResult {s v : State} (hk : s.lifecycle = v.lifecycle) (hty : s.actType = v.actType)
    (he : s.actEncKey = v.actEncKey) (hi : s.actIntKey = v.actIntKey) (hlen : s.len = v.len)
    (hin : ∀ k < s.inLen.toNat, s.dataIn.byte k = v.dataIn.byte k) (hiv : ∀ k < 16, s.ivBuf.byte k = v.ivBuf.byte k) :
    SameResult (encrypt s) (encrypt v) := by
  have hinLen : s.inLen = v.inLen := congrArg (BitVec.extractLsb' 0 8) hlen
  have hivLen : s.ivLen = v.ivLen := congrArg (BitVec.extractLsb' 8 8) hlen
  have hinit : s.initVector = v.initVector := bytes_congr _ _ _ _ fun k hk => by rw [Nat.zero_add]; exact hiv k hk
  simp only [encrypt, ← hk, ← hty, ← hinLen, ← hivLen]
  split
  · exact .of_error _ _ (by decide)
  · split
    next => exact .of_error _ _ (by decide)
    next f hf =>
      split
      · exact .of_error _ _ (by decide)
      · split
        next => exact .of_error _ _ (by decide)
        next hl => exact sealToken_sameResult f he hi hinit (input_congr (not_not.1 hl ▸ hin))

/-- Settles O57: neither command reads anything else than what the two states share. -/
theorem earlierOutputReachesNoResult : Obligations.EarlierOutputReachesNoResult := by
  rintro s v i (rfl | rfl) hk hty he hi hlen hin hiv
  · exact ⟨_, _, exec_decrypt s, exec_decrypt v, decrypt_sameResult hk hty he hi hlen hin⟩
  · exact ⟨_, _, exec_encrypt s, exec_encrypt v, encrypt_sameResult hk hty he hi hlen hin (hiv rfl)⟩

end Sys2Proof.Machine
end
